-- ==== Sys2Proof/Word.lean ====
section
/-! DEFINITION. The word types of the machine (00_scope.md R3, R4): every value is an unsigned bit vector. -/

namespace Sys2Proof

/-- One byte of memory, one general register, one timer (00_scope.md R3, `XLEN` = 8). -/
abbrev Byte := BitVec 8

/-- The instruction word, the index register, the program counter, a stack slot (00_scope.md R3). -/
abbrev Word := BitVec 16

/-- A 4-bit field of the instruction word (30_encoding.md R61). -/
abbrev Nibble := BitVec 4

/-- The 12-bit field `nnn` of the instruction word (30_encoding.md R61). -/
abbrev Addr := BitVec 12

/-- A register number: a 4-bit field, every value of which is a legal register (30_encoding.md R63). -/
abbrev RegNum := Nibble

end Sys2Proof
end

