-- ==== Sys2Proof/Syntax.lean ====
section
/-! DEFINITION. The instructions, one constructor per row of spec/opcode_table.json (30_encoding.md R65), with the
operand fields of the row's format (30_encoding.md R61, R62). -/

namespace Sys2Proof

/-- The 35 instructions of 30_encoding.md R65, in the order of its rows. `x` and `y` are register numbers, `kk` and `n`
immediates, `nnn` an address. -/
inductive Instr where
  /-- Row 1, `0nnn`: SYS nnn. -/
  | sys (nnn : Addr)
  /-- Row 2, `00E0`: CLS. -/
  | cls
  /-- Row 3, `00EE`: RET. -/
  | ret
  /-- Row 4, `1nnn`: JP nnn. -/
  | jp (nnn : Addr)
  /-- Row 5, `2nnn`: CALL nnn. -/
  | call (nnn : Addr)
  /-- Row 6, `3xkk`: SE Vx, kk. -/
  | seKk (x : RegNum) (kk : Byte)
  /-- Row 7, `4xkk`: SNE Vx, kk. -/
  | sneKk (x : RegNum) (kk : Byte)
  /-- Row 8, `5xy0`: SE Vx, Vy. -/
  | seVy (x y : RegNum)
  /-- Row 9, `6xkk`: LD Vx, kk. -/
  | ld (x : RegNum) (kk : Byte)
  /-- Row 10, `7xkk`: ADD Vx, kk. -/
  | addKk (x : RegNum) (kk : Byte)
  /-- Row 11, `8xy0`: LD Vx, Vy. -/
  | ldVy (x y : RegNum)
  /-- Row 12, `8xy1`: OR Vx, Vy. -/
  | or (x y : RegNum)
  /-- Row 13, `8xy2`: AND Vx, Vy. -/
  | and (x y : RegNum)
  /-- Row 14, `8xy3`: XOR Vx, Vy. -/
  | xor (x y : RegNum)
  /-- Row 15, `8xy4`: ADD Vx, Vy. -/
  | add (x y : RegNum)
  /-- Row 16, `8xy5`: SUB Vx, Vy. -/
  | sub (x y : RegNum)
  /-- Row 17, `8xy6`: SHR Vx; the word carries a `y` that the operation ignores (30_encoding.md R62, R69).
  DESIGN CHOICE (log entry 2): the field is kept in the syntax, so that no bit of the word is dropped; safe. -/
  | shr (x y : RegNum)
  /-- Row 18, `8xy7`: SUBN Vx, Vy. -/
  | subn (x y : RegNum)
  /-- Row 19, `8xyE`: SHL Vx; `y` as for SHR (log entry 2). -/
  | shl (x y : RegNum)
  /-- Row 20, `9xy0`: SNE Vx, Vy. -/
  | sneVy (x y : RegNum)
  /-- Row 21, `Annn`: LD I, nnn. -/
  | ldi (nnn : Addr)
  /-- Row 22, `Bnnn`: JP V0, nnn. -/
  | jp0 (nnn : Addr)
  /-- Row 23, `Cxkk`: RND Vx, kk. -/
  | rnd (x : RegNum) (kk : Byte)
  /-- Row 24, `Dxyn`: DRW Vx, Vy, n. -/
  | drw (x y : RegNum) (n : Nibble)
  /-- Row 25, `Ex9E`: SKP Vx. -/
  | skp (x : RegNum)
  /-- Row 26, `ExA1`: SKNP Vx. -/
  | sknp (x : RegNum)
  /-- Row 27, `Fx07`: LD Vx, DT. -/
  | ldVxDt (x : RegNum)
  /-- Row 28, `Fx0A`: LD Vx, K. -/
  | ldk (x : RegNum)
  /-- Row 29, `Fx15`: LD DT, Vx. -/
  | ldDtVx (x : RegNum)
  /-- Row 30, `Fx18`: LD ST, Vx. -/
  | ldStVx (x : RegNum)
  /-- Row 31, `Fx1E`: ADD I, Vx. -/
  | addi (x : RegNum)
  /-- Row 32, `Fx29`: LD F, Vx. -/
  | ldf (x : RegNum)
  /-- Row 33, `Fx33`: LD B, Vx. -/
  | sbcd (x : RegNum)
  /-- Row 34, `Fx55`: LD [I], Vx. -/
  | sri (x : RegNum)
  /-- Row 35, `Fx65`: LD Vx, [I]. -/
  | lir (x : RegNum)
  deriving DecidableEq, Repr

end Sys2Proof
end

