-- ==== Sys2Proof/WellFormed.lean ====
section
/-! DEFINITION. Which instruction terms are the reading of some word (30_encoding.md R63, R66). Every operand field
fills its type, so the one check is on SYS, whose two excluded words are CLS and RET. -/

namespace Sys2Proof

/-- 30_encoding.md R66: the words `0x00E0` and `0x00EE` are CLS and RET, never SYS. -/
def sysOperandOk (nnn : Addr) : Bool :=
  nnn != 0x0E0#12 && nnn != 0x0EE#12

/-- An instruction term that some instruction word stands for (30_encoding.md R63: every `x`, `y`, `n`, `kk` and `nnn`
is legal; R66: but for the two words taken out of SYS). -/
def Instr.wellFormed : Instr → Bool
  | .sys nnn => sysOperandOk nnn
  | .cls | .ret => true
  | .jp _ | .call _ | .ldi _ | .jp0 _ => true
  | .seKk _ _ | .sneKk _ _ | .ld _ _ | .addKk _ _ | .rnd _ _ => true
  | .seVy _ _ | .sneVy _ _ => true
  | .ldVy _ _ | .or _ _ | .and _ _ | .xor _ _ | .add _ _ | .sub _ _ | .shr _ _ | .subn _ _ | .shl _ _ => true
  | .drw _ _ _ => true
  | .skp _ | .sknp _ => true
  | .ldVxDt _ | .ldk _ | .ldDtVx _ | .ldStVx _ | .addi _ | .ldf _ | .sbcd _ | .sri _ | .lir _ => true

end Sys2Proof
end

