-- ==== Sys2Proof/Decode.lean ====
section
/-! DEFINITION. From bytes to instructions and back (30_encoding.md): the fields of the word, the two-level dispatch,
the encoder, and the opcode map of R65 as a table. -/

namespace Sys2Proof

/-! ## Fields of the word (30_encoding.md R61) -/

/-- `op[15:12]`, the class nibble. -/
def Word.cls (op : Word) : Nibble := op.extractLsb' 12 4

/-- `op[11:8]`, the register number `x`. -/
def Word.x (op : Word) : RegNum := op.extractLsb' 8 4

/-- `op[7:4]`, the register number `y`. -/
def Word.y (op : Word) : RegNum := op.extractLsb' 4 4

/-- `op[3:0]`, the immediate nibble or function code. -/
def Word.n (op : Word) : Nibble := op.extractLsb' 0 4

/-- `op[7:0]`, the immediate byte or function code. -/
def Word.kk (op : Word) : Byte := op.extractLsb' 0 8

/-- `op[11:0]`, the immediate address. -/
def Word.nnn (op : Word) : Addr := op.extractLsb' 0 12

/-- The word from its two bytes, the byte of the lower address high (20_memory.md R42). -/
def wordOfBytes (hi lo : Byte) : Word := hi ++ lo

/-- The two bytes of a word in ascending address order (20_memory.md R42). -/
def bytesOfWord (op : Word) : List Byte := [op.extractLsb' 8 8, op.extractLsb' 0 8]

/-! ## Decoding (30_encoding.md R64, R66, R67) -/

/-- Why bytes are no instruction. The first five are the rows of 30_encoding.md R67's table; all of them make a step
raise `IllegalOpcode`. -/
inductive DecodeError where
  /-- `5xyn` with `n` not 0. -/
  | illegalClass5
  /-- `8xyn` with `n` in 8 to D or F. -/
  | illegalClass8
  /-- `9xyn` with `n` not 0. -/
  | illegalClass9
  /-- `Exkk` with `kk` neither 9E nor A1. -/
  | illegalClassE
  /-- `Fxkk` with `kk` none of the nine keys of class F. -/
  | illegalClassF
  /-- Fewer than two bytes; a step never meets this, its fetch reads two bytes or faults. -/
  | truncated
  deriving DecidableEq, Repr

/-- Class 0 (30_encoding.md R66): CLS and RET are whole words, every other word is SYS. -/
def decodeClass0 (op : Word) : Instr :=
  if op = 0x00E0#16 then .cls else if op = 0x00EE#16 then .ret else .sys (Word.nnn op)

/-- Class 8 (30_encoding.md R65 rows 11 to 19): the secondary key is `n`. -/
def decodeClass8 (op : Word) : Except DecodeError Instr :=
  if Word.n op = 0x0#4 then .ok (.ldVy (Word.x op) (Word.y op))
  else if Word.n op = 0x1#4 then .ok (.or (Word.x op) (Word.y op))
  else if Word.n op = 0x2#4 then .ok (.and (Word.x op) (Word.y op))
  else if Word.n op = 0x3#4 then .ok (.xor (Word.x op) (Word.y op))
  else if Word.n op = 0x4#4 then .ok (.add (Word.x op) (Word.y op))
  else if Word.n op = 0x5#4 then .ok (.sub (Word.x op) (Word.y op))
  else if Word.n op = 0x6#4 then .ok (.shr (Word.x op) (Word.y op))
  else if Word.n op = 0x7#4 then .ok (.subn (Word.x op) (Word.y op))
  else if Word.n op = 0xE#4 then .ok (.shl (Word.x op) (Word.y op))
  else .error .illegalClass8

/-- Class E (30_encoding.md R65 rows 25 and 26): the secondary key is `kk`. -/
def decodeClassE (op : Word) : Except DecodeError Instr :=
  if Word.kk op = 0x9E#8 then .ok (.skp (Word.x op))
  else if Word.kk op = 0xA1#8 then .ok (.sknp (Word.x op))
  else .error .illegalClassE

/-- Class F (30_encoding.md R65 rows 27 to 35): the secondary key is `kk`. -/
def decodeClassF (op : Word) : Except DecodeError Instr :=
  if Word.kk op = 0x07#8 then .ok (.ldVxDt (Word.x op))
  else if Word.kk op = 0x0A#8 then .ok (.ldk (Word.x op))
  else if Word.kk op = 0x15#8 then .ok (.ldDtVx (Word.x op))
  else if Word.kk op = 0x18#8 then .ok (.ldStVx (Word.x op))
  else if Word.kk op = 0x1E#8 then .ok (.addi (Word.x op))
  else if Word.kk op = 0x29#8 then .ok (.ldf (Word.x op))
  else if Word.kk op = 0x33#8 then .ok (.sbcd (Word.x op))
  else if Word.kk op = 0x55#8 then .ok (.sri (Word.x op))
  else if Word.kk op = 0x65#8 then .ok (.lir (Word.x op))
  else .error .illegalClassF

/-- The two-level dispatch of 30_encoding.md R64, first on the class nibble; it depends on the word only. -/
def decode (op : Word) : Except DecodeError Instr :=
  if Word.cls op = 0x0#4 then .ok (decodeClass0 op)
  else if Word.cls op = 0x1#4 then .ok (.jp (Word.nnn op))
  else if Word.cls op = 0x2#4 then .ok (.call (Word.nnn op))
  else if Word.cls op = 0x3#4 then .ok (.seKk (Word.x op) (Word.kk op))
  else if Word.cls op = 0x4#4 then .ok (.sneKk (Word.x op) (Word.kk op))
  else if Word.cls op = 0x5#4 then
    if Word.n op = 0x0#4 then .ok (.seVy (Word.x op) (Word.y op)) else .error .illegalClass5
  else if Word.cls op = 0x6#4 then .ok (.ld (Word.x op) (Word.kk op))
  else if Word.cls op = 0x7#4 then .ok (.addKk (Word.x op) (Word.kk op))
  else if Word.cls op = 0x8#4 then decodeClass8 op
  else if Word.cls op = 0x9#4 then
    if Word.n op = 0x0#4 then .ok (.sneVy (Word.x op) (Word.y op)) else .error .illegalClass9
  else if Word.cls op = 0xA#4 then .ok (.ldi (Word.nnn op))
  else if Word.cls op = 0xB#4 then .ok (.jp0 (Word.nnn op))
  else if Word.cls op = 0xC#4 then .ok (.rnd (Word.x op) (Word.kk op))
  else if Word.cls op = 0xD#4 then .ok (.drw (Word.x op) (Word.y op) (Word.n op))
  else if Word.cls op = 0xE#4 then decodeClassE op
  else decodeClassF op

/-- Decoding bytes in ascending address order: one instruction and the bytes after it. Every instruction is two bytes
(30_encoding.md R60, R70). -/
def decodeBytes : List Byte → Except DecodeError (Instr × List Byte)
  | hi :: lo :: rest =>
    match decode (wordOfBytes hi lo) with
    | .ok i => .ok (i, rest)
    | .error e => .error e
  | _ => .error .truncated

/-- The instruction an opcode-table word stands for: the low `nbits` bits of `w`, laid out as the hardware stores them
(20_memory.md R42: the high byte of the one 16-bit word at the lower address) and given to the decoder. -/
def decodeTableWord (nbits w : Nat) : Option Instr :=
  match decodeBytes (bytesOfWord (BitVec.ofNat 16 (w % 2 ^ nbits))) with
  | .ok (i, _) => some i
  | .error _ => none

/-! ## Encoding (30_encoding.md R62, R65) -/

/-- Format A: class and address. -/
def wordA (c : Nibble) (nnn : Addr) : Word := c ++ nnn

/-- Format XK: class, register, byte; with `kk` a function code, format X. -/
def wordXK (c : Nibble) (x : RegNum) (kk : Byte) : Word := c ++ (x ++ kk)

/-- Format XYN: class, two registers, nibble; with `n` a function code, format XY. -/
def wordXYN (c : Nibble) (x y : RegNum) (n : Nibble) : Word := c ++ (x ++ (y ++ n))

/-- The word of an instruction (30_encoding.md R65, column Pattern). -/
def encode : Instr → Word
  | .sys nnn => wordA 0x0 nnn
  | .cls => 0x00E0#16
  | .ret => 0x00EE#16
  | .jp nnn => wordA 0x1 nnn
  | .call nnn => wordA 0x2 nnn
  | .seKk x kk => wordXK 0x3 x kk
  | .sneKk x kk => wordXK 0x4 x kk
  | .seVy x y => wordXYN 0x5 x y 0x0
  | .ld x kk => wordXK 0x6 x kk
  | .addKk x kk => wordXK 0x7 x kk
  | .ldVy x y => wordXYN 0x8 x y 0x0
  | .or x y => wordXYN 0x8 x y 0x1
  | .and x y => wordXYN 0x8 x y 0x2
  | .xor x y => wordXYN 0x8 x y 0x3
  | .add x y => wordXYN 0x8 x y 0x4
  | .sub x y => wordXYN 0x8 x y 0x5
  | .shr x y => wordXYN 0x8 x y 0x6
  | .subn x y => wordXYN 0x8 x y 0x7
  | .shl x y => wordXYN 0x8 x y 0xE
  | .sneVy x y => wordXYN 0x9 x y 0x0
  | .ldi nnn => wordA 0xA nnn
  | .jp0 nnn => wordA 0xB nnn
  | .rnd x kk => wordXK 0xC x kk
  | .drw x y n => wordXYN 0xD x y n
  | .skp x => wordXK 0xE x 0x9E
  | .sknp x => wordXK 0xE x 0xA1
  | .ldVxDt x => wordXK 0xF x 0x07
  | .ldk x => wordXK 0xF x 0x0A
  | .ldDtVx x => wordXK 0xF x 0x15
  | .ldStVx x => wordXK 0xF x 0x18
  | .addi x => wordXK 0xF x 0x1E
  | .ldf x => wordXK 0xF x 0x29
  | .sbcd x => wordXK 0xF x 0x33
  | .sri x => wordXK 0xF x 0x55
  | .lir x => wordXK 0xF x 0x65

/-- The bytes of an instruction in ascending address order. -/
def encodeBytes (i : Instr) : List Byte := bytesOfWord (encode i)

/-! ## The opcode map as a table (30_encoding.md R65) -/

/-- One row of the map: a word `op` selects it when `op &&& mask = pattern` (the spec's column `match`). -/
structure OpcodeRow where
  id : String
  mask : Word
  pattern : Word
  deriving DecidableEq, Repr

/-- The 35 rows of 30_encoding.md R65. CLS and RET stand first: the rows with mask `0xFFFF` are tested first (R66). -/
def opcodeMap : List OpcodeRow :=
  [⟨"CLS", 0xFFFF, 0x00E0⟩, ⟨"RET", 0xFFFF, 0x00EE⟩, ⟨"SYS", 0xF000, 0x0000⟩, ⟨"JP", 0xF000, 0x1000⟩,
   ⟨"CALL", 0xF000, 0x2000⟩, ⟨"SE_KK", 0xF000, 0x3000⟩, ⟨"SNE_KK", 0xF000, 0x4000⟩, ⟨"SE_VY", 0xF00F, 0x5000⟩,
   ⟨"LD", 0xF000, 0x6000⟩, ⟨"ADD_KK", 0xF000, 0x7000⟩, ⟨"LD_VY", 0xF00F, 0x8000⟩, ⟨"OR", 0xF00F, 0x8001⟩] ++
  [⟨"AND", 0xF00F, 0x8002⟩, ⟨"XOR", 0xF00F, 0x8003⟩, ⟨"ADD", 0xF00F, 0x8004⟩, ⟨"SUB", 0xF00F, 0x8005⟩,
   ⟨"SHR", 0xF00F, 0x8006⟩, ⟨"SUBN", 0xF00F, 0x8007⟩, ⟨"SHL", 0xF00F, 0x800E⟩, ⟨"SNE_VY", 0xF00F, 0x9000⟩,
   ⟨"LDI", 0xF000, 0xA000⟩, ⟨"JP0", 0xF000, 0xB000⟩, ⟨"RND", 0xF000, 0xC000⟩, ⟨"DRW", 0xF000, 0xD000⟩] ++
  [⟨"SKP", 0xF0FF, 0xE09E⟩, ⟨"SKNP", 0xF0FF, 0xE0A1⟩, ⟨"LD_VX_DT", 0xF0FF, 0xF007⟩, ⟨"LDK", 0xF0FF, 0xF00A⟩,
   ⟨"LD_DT_VX", 0xF0FF, 0xF015⟩, ⟨"LD_ST_VX", 0xF0FF, 0xF018⟩, ⟨"ADDI", 0xF0FF, 0xF01E⟩, ⟨"LDF", 0xF0FF, 0xF029⟩,
   ⟨"SBCD", 0xF0FF, 0xF033⟩, ⟨"SRI", 0xF0FF, 0xF055⟩, ⟨"LIR", 0xF0FF, 0xF065⟩]

/-- The id of the first row that a word selects. -/
def lookupId (op : Word) : Option String :=
  (opcodeMap.find? fun r => op &&& r.mask == r.pattern).map OpcodeRow.id

/-- The id of an instruction, letter for letter as 30_encoding.md R65 has it. -/
def Instr.id : Instr → String
  | .sys _ => "SYS"
  | .cls => "CLS"
  | .ret => "RET"
  | .jp _ => "JP"
  | .call _ => "CALL"
  | .seKk _ _ => "SE_KK"
  | .sneKk _ _ => "SNE_KK"
  | .seVy _ _ => "SE_VY"
  | .ld _ _ => "LD"
  | .addKk _ _ => "ADD_KK"
  | .ldVy _ _ => "LD_VY"
  | .or _ _ => "OR"
  | .and _ _ => "AND"
  | .xor _ _ => "XOR"
  | .add _ _ => "ADD"
  | .sub _ _ => "SUB"
  | .shr _ _ => "SHR"
  | .subn _ _ => "SUBN"
  | .shl _ _ => "SHL"
  | .sneVy _ _ => "SNE_VY"
  | .ldi _ => "LDI"
  | .jp0 _ => "JP0"
  | .rnd _ _ => "RND"
  | .drw _ _ _ => "DRW"
  | .skp _ => "SKP"
  | .sknp _ => "SKNP"
  | .ldVxDt _ => "LD_VX_DT"
  | .ldk _ => "LDK"
  | .ldDtVx _ => "LD_DT_VX"
  | .ldStVx _ => "LD_ST_VX"
  | .addi _ => "ADDI"
  | .ldf _ => "LDF"
  | .sbcd _ => "SBCD"
  | .sri _ => "SRI"
  | .lir _ => "LIR"

end Sys2Proof
end

