-- ==== Sys2Proof/Config.lean ====
section
/-! DEFINITION. The parameters of the machine (00_scope.md R3) and the one free value (10_state.md R31).
The font, also a constant of the configuration, stands in Sys2Proof/Machine/Font.lean. -/

namespace Sys2Proof.Config

/-- `MEM_SIZE`, also `ADDR_LIMIT`: bytes of main memory, the first invalid address (00_scope.md R3). -/
abbrev memSize : Nat := 4096

/-- `STACK_DEPTH`: slots of the call stack (00_scope.md R3). -/
abbrev stackDepth : Nat := 16

/-- `FB_W`: columns of the framebuffer (00_scope.md R3). -/
abbrev fbWidth : Nat := 64

/-- `FB_H`: rows of the framebuffer (00_scope.md R3). -/
abbrev fbHeight : Nat := 32

/-- `ROM_BASE`: address of the first byte of the ROM image, and the initial PC (00_scope.md R3). -/
abbrev romBase : Nat := 0x200

/-- `ROM_MAX`: the largest ROM image in bytes (00_scope.md R3). -/
abbrev romMax : Nat := memSize - romBase

/-- `FONT_BASE`: address of the first byte of the font (00_scope.md R3). -/
abbrev fontBase : Nat := 0x050

/-- `FONT_GLYPH_BYTES`: bytes of one glyph (00_scope.md R3). -/
abbrev fontGlyphBytes : Nat := 5

/-- The free value of the model: byte number `k` of the sequence that the environment supplies as the input `rnd`
(10_state.md R31). It has no body: every byte is possible at every place and no law relates two of them.
DESIGN CHOICE (log entry 1): the host's `step` takes no input, so it reads this constant at the place that stands beside
the architectural state. Safe for one run: nothing can be proved of its value. -/
opaque rnd : Nat → Byte

end Sys2Proof.Config
end

