-- ==== Sys2Proof/Machine/State.lean ====
section
/-! DEFINITION. The architectural state (10_state.md R10), its reset value (10_state.md R32), and the ways a step or an
initialisation can end other than in a next state. -/

namespace Sys2Proof.Machine

/-- Main memory as a list of (address, byte) pairs in one canonical form (`Memory.wf` in Ops.lean); an address that is
not listed reads as `Memory.unlisted`, its reset contents with no ROM (20_memory.md R51). -/
abbrev Memory := List Host.Cell

/-- The framebuffer: 32 rows of 64 pixels, row 0 at the top, column 0 at the left, `true` = on (10_state.md R23). -/
abbrev Framebuffer := Vector (Vector Bool 64) 32

/-- The architectural state: the ten elements of 10_state.md R10 and nothing else. It holds no generator of random bytes
(10_state.md R25 (d)). -/
structure Arch where
  /-- General registers V0 to VF (10_state.md R11); VF is register 15 and the one flag (R12). -/
  v : Vector Byte 16
  /-- Index register I, all 16 bits kept (10_state.md R16). -/
  i : Word
  /-- Program counter (10_state.md R14): between steps, the address of the next instruction to fetch. -/
  pc : Word
  /-- The call stack's 16 slots (10_state.md R18). -/
  stack : Vector Word 16
  /-- The number of return addresses on the stack, 0 to 16 (10_state.md R19). -/
  sp : Fin 17
  /-- Delay timer (10_state.md R20). -/
  dt : Byte
  /-- Sound timer (10_state.md R21). -/
  st : Byte
  /-- Key flags K[0] to K[15], `true` = down (10_state.md R22). -/
  keys : Vector Bool 16
  /-- Framebuffer (10_state.md R23). -/
  fb : Framebuffer
  /-- Main memory (10_state.md R24). -/
  mem : Memory
  deriving DecidableEq, Repr

/-- What the host's `step` runs on, which takes no input: the architectural state and, beside it, the place in the
sequence of bytes that the environment supplies as `rnd` (10_state.md R31). -/
structure State extends Arch where
  /-- Of the environment, not of the machine, and the model's own: the number of bytes supplied so far (log entry 1). At
  the machine's ports there is none: there the byte is an argument of the step (`Arch.step` in Driver.lean). -/
  draws : Nat
  deriving DecidableEq, Repr

/-- The faults of a step (60_exceptions.md R170). A fault changes no state element (40_step_cycle.md R87). -/
inductive Fault where
  /-- Raised by decode for a word of 30_encoding.md R67, and by SYS (60_exceptions.md R171). Safe: the model stops. -/
  | illegalOpcode
  /-- Raised by CALL when SP = 16 (60_exceptions.md R172). Safe: the model stops. -/
  | stackOverflow
  /-- Raised by RET when SP = 0 (60_exceptions.md R173). Safe: the model stops. -/
  | stackUnderflow
  /-- Raised by the fetch, DRW, SBCD, SRI and LIR for an address of 0x1000 or more (60_exceptions.md R174).
  Safe: the model stops (92_eei_decisions.md D3). -/
  | addressOutOfRange
  deriving DecidableEq, Repr

/-- Refusals of the model. -/
inductive Refusal where
  /-- An instruction without a meaning; raised only by a dispatch arm that rejects by name, and no arm does.
  Safe: the model stops. -/
  | notModelled (mnemonic : String)
  deriving DecidableEq, Repr

/-- The one way an initialisation fails (60_exceptions.md R175); never the result of a step. -/
inductive InitError where
  /-- The ROM image is longer than 3584 bytes; no machine is constructed. Raised by `Arch.initialise`. Safe. -/
  | romTooLarge
  deriving DecidableEq, Repr

/-- The machine right after reset, with no ROM image in memory (10_state.md R32 with L = 0; log entry 4), before the
environment has supplied a byte (log entry 1). -/
def State.reset : State where
  v := Vector.replicate 16 0
  i := 0
  pc := 0x0200
  stack := Vector.replicate 16 0
  sp := 0
  dt := 0
  st := 0
  keys := Vector.replicate 16 false
  fb := Vector.replicate 32 (Vector.replicate 64 false)
  mem := []
  draws := 0

end Sys2Proof.Machine
end

