-- ==== Sys2Proof/Machine/Ops.lean ====
section
/-! DEFINITION. The named operations over registers, memory, stack, keys and framebuffer that the meanings are built
from; raising a fault; fetching an instruction. -/

namespace Sys2Proof.Machine

/-- What a step or an instruction answers. -/
abbrev Result := Host.Outcome State Fault Refusal

/-! ## Faults (60_exceptions.md) -/

/-- `raise <Exception>` (00_scope.md R5): the step ends at once with the fault's name. There is no trap entry: no saved
PC, no vector, no mode change, no state element changes (60_exceptions.md R179; 40_step_cycle.md R87). There is no
return from a fault either (60_exceptions.md R180). -/
def raise (f : Fault) : Result := .fault f

/-! ## General registers (10_state.md R11) -/

/-- The register number of VF, the flag register (10_state.md R12). -/
def vf : RegNum := 0xF#4

/-- Read of register `r`. -/
def State.reg (s : State) (r : RegNum) : Byte := s.v[r.toNat]'r.isLt

/-- Write of register `r`; none is hard-wired (10_state.md R11). -/
def State.setReg (s : State) (r : RegNum) (b : Byte) : State := { s with v := s.v.set r.toNat b r.isLt }

/-- The two writes of ADD, SUB, SUBN, SHR and SHL (40_step_cycle.md R86): VF with the flag first, Vx with the result
second, so that with `x = F` the result is what VF holds. Both values were computed before any write (R85). -/
def State.setFlagThenReg (s : State) (x : RegNum) (flag result : Byte) : State :=
  (s.setReg vf flag).setReg x result

/-- RND's write of Vx (42_load_alu.md R131): the random byte of the step under the mask. -/
def State.setRandom (s : State) (x : RegNum) (kk rnd : Byte) : State := s.setReg x (rnd &&& kk)

/-! ## Program counter (10_state.md R14, R15) -/

/-- The advance of the step (40_step_cycle.md R82): from `PC0` to `PCn = PC0 + 2`. -/
def State.advance (s : State) : State := { s with pc := s.pc + 2 }

/-- A transfer of control (41_control_flow.md R109): the target is never checked here. -/
def State.jump (s : State) (target : Word) : State := { s with pc := target }

/-- A skip (41_control_flow.md R109): when the condition holds, pass over exactly 2 bytes, `PC <- PCn + 2`. -/
def State.skipIf (s : State) (c : Bool) : State := if c then { s with pc := s.pc + 2 } else s

/-- The key wait's undoing of the advance (45_keys_timers.md R162): `PC <- PCn - 2`. -/
def State.retreat (s : State) : State := { s with pc := s.pc - 2 }

/-! ## Call stack (10_state.md R18, R19) -/

/-- CALL's use of the stack (41_control_flow.md R103): `S[SP] <- w`, then `SP <- SP + 1`; none when 16 are held. -/
def State.push (s : State) (w : Word) : Option State :=
  if h : s.sp.val < 16 then
    some { s with stack := s.stack.set s.sp.val w h, sp := ⟨s.sp.val + 1, by omega⟩ }
  else none

/-- RET's use of the stack (41_control_flow.md R101): `SP <- SP - 1`, then the slot `S[SP]`, which keeps its contents;
none when the stack is empty. -/
def State.pop (s : State) : Option (Word × State) :=
  if 0 < s.sp.val then
    some (s.stack[s.sp.val - 1]'(by omega), { s with sp := ⟨s.sp.val - 1, by omega⟩ })
  else none

/-! ## Main memory (20_memory.md) -/

/-- What an address that is not listed reads as: its reset contents with no ROM (20_memory.md R51): the font at 0x050 to
0x09F, zero elsewhere. -/
def Memory.unlisted (a : Nat) : Byte :=
  if Config.fontBase ≤ a then Config.fontTable.getD (a - Config.fontBase) 0 else 0

/-- Read of one byte (20_memory.md R50: no side effect). Callers check the address first. -/
def Memory.read : Memory → Nat → Byte
  | [], a => Memory.unlisted a
  | (k, b) :: m, a => if k = a then b else Memory.read m a

/-- The list without the entry of address `a`. -/
def Memory.erase (m : Memory) (a : Nat) : Memory := m.filter fun p => p.1 != a

/-- The list with an entry for `a` at its place in the rising order of addresses. -/
def Memory.insert : Memory → Nat → Byte → Memory
  | [], a, b => [(a, b)]
  | (k, c) :: m, a, b => if a < k then (a, b) :: (k, c) :: m else (k, c) :: Memory.insert m a b

/-- The list with `b` at `a`, in the canonical form: a byte equal to the unlisted one is not listed. -/
def Memory.put (m : Memory) (a : Nat) (b : Byte) : Memory :=
  if b = Memory.unlisted a then m.erase a else (m.erase a).insert a b

/-- Write of one byte (20_memory.md R48). An address of 0x1000 or more does not exist and is not written
(20_memory.md R46); callers check the address first, so no step comes to that case. -/
def Memory.write (m : Memory) (a : Nat) (b : Byte) : Memory :=
  if a < Config.memSize then m.put a b else m

/-- The canonical form: addresses strictly rising and below 0x1000, no entry equal to what its address reads as when
unlisted. -/
abbrev Memory.wf (m : Memory) : Prop :=
  m.Pairwise (fun p q => p.1 < q.1) ∧ ∀ p ∈ m, p.1 < Config.memSize ∧ p.2 ≠ Memory.unlisted p.1

/-- `n` bytes from address `a` on, ascending (20_memory.md R43). -/
def Memory.readBytes (m : Memory) (a : Nat) : Nat → List Byte
  | 0 => []
  | n + 1 => m.read a :: Memory.readBytes m (a + 1) n

/-- Bytes to address `a` and up, ascending (20_memory.md R43). -/
def Memory.writeBytes (m : Memory) (a : Nat) : List Byte → Memory
  | [] => m
  | b :: bs => Memory.writeBytes (m.write a b) (a + 1) bs

/-- The canonical memory that holds `bytes` from address `a` on and is unlisted elsewhere (70_reset_and_hazards.md
R203: the copy of the ROM image into freshly reset memory). -/
def Memory.image (a : Nat) : List Byte → Memory
  | [] => []
  | b :: bs => if b = Memory.unlisted a then Memory.image (a + 1) bs else (a, b) :: Memory.image (a + 1) bs

/-- The bounds rule of 20_memory.md R46 and R47 for `n` bytes from `a`: none is accessed when `n = 0`, else the last
address is at most 0xFFF. `a` is not truncated. -/
abbrev InMemory (a n : Nat) : Prop := n = 0 ∨ a + n - 1 ≤ 0xFFF

/-- Read of one byte of the state's memory. -/
def State.byte (s : State) (a : Nat) : Byte := s.mem.read a

/-- Store of bytes at `a` and up, the whole range checked before the first write (20_memory.md R46, R47). -/
def State.storeBytes (s : State) (a : Nat) (bs : List Byte) : Result :=
  if InMemory a bs.length then .next { s with mem := s.mem.writeBytes a bs } else raise .addressOutOfRange

/-- V0, V1, ... set to the given bytes in ascending order, starting at register `k` (43_index_memory.md R145). -/
def setRegsFrom (v : Vector Byte 16) (k : Nat) : List Byte → Vector Byte 16
  | [] => v
  | b :: bs => setRegsFrom (v.setIfInBounds k b) (k + 1) bs

/-- Load of `n` bytes from `a` and up into V0, V1, ..., the whole range checked first (20_memory.md R46, R47). -/
def State.loadRegs (s : State) (a n : Nat) : Result :=
  if InMemory a n then .next { s with v := setRegsFrom s.v 0 (s.mem.readBytes a n) } else raise .addressOutOfRange

/-! ## Keys (10_state.md R22) -/

/-- Whether key `k` is down. -/
def State.keyDown (s : State) (k : Nibble) : Bool := s.keys[k.toNat]'k.isLt

/-- The smallest key number that is down, none when all are up (45_keys_timers.md R162). -/
def State.lowestKey (s : State) : Option (Fin 16) := (List.finRange 16).find? fun k => s.keys[k]

/-! ## Framebuffer (10_state.md R23; 44_display.md R153) -/

/-- Pixel in column `px` and row `py`, both reduced (44_display.md R151: modulo 64 and 32). -/
def Framebuffer.pixel (fb : Framebuffer) (px py : Nat) : Bool :=
  (fb[py % 32]'(Nat.mod_lt _ (by decide)))[px % 64]'(Nat.mod_lt _ (by decide))

/-- `FB[px, py] <- FB[px, py] ^ 1`, with `px` and `py` reduced modulo 64 and 32. -/
def Framebuffer.toggle (fb : Framebuffer) (px py : Nat) : Framebuffer :=
  fb.set (py % 32)
    ((fb[py % 32]'(Nat.mod_lt _ (by decide))).set (px % 64) (!(fb.pixel px py)) (Nat.mod_lt _ (by decide)))
    (Nat.mod_lt _ (by decide))

/-- All pixels off (44_display.md R150). -/
def Framebuffer.clear : Framebuffer := Vector.replicate 32 (Vector.replicate 64 false)

/-- The visit of one pixel under a set sprite bit (44_display.md R151): it collides when it is on, and is toggled. The
pair is the framebuffer and whether there has been a collision. -/
def blitPixel (p : Framebuffer × Bool) (px py : Nat) : Framebuffer × Bool :=
  (p.1.toggle px py, p.2 || p.1.pixel px py)

/-- The first `c` columns of one sprite row (44_display.md R151): column `c` is bit `7 - c`; a clear bit visits
nothing. -/
def blitRow (row : Byte) (x0 py : Nat) : Nat → Framebuffer × Bool → Framebuffer × Bool
  | 0, p => p
  | c + 1, p =>
    if row.getLsbD (7 - c) then blitPixel (blitRow row x0 py c p) (x0 + c) py else blitRow row x0 py c p

/-- The rows of a sprite, one below the other from row `y0` on (44_display.md R151). -/
def blitRows (x0 : Nat) : Nat → List Byte → Framebuffer × Bool → Framebuffer × Bool
  | _, [], p => p
  | y0, row :: rows, p => blitRows x0 (y0 + 1) rows (blitRow row x0 y0 8 p)

/-! ## Fetch (20_memory.md R42, R44; 40_step_cycle.md R81) -/

/-- The instruction word at the PC, high byte first; none when `PC + 1 > 0xFFF`. No alignment (20_memory.md R45). -/
def State.fetch (s : State) : Option Word :=
  if InMemory s.pc.toNat 2 then some (wordOfBytes (s.byte s.pc.toNat) (s.byte (s.pc.toNat + 1))) else none

/-- One step (40_step_cycle.md R80; priority of faults 60_exceptions.md R178), with `run` in the place of executing the
decoded instruction: the fetch may raise `AddressOutOfRange`, the decode `IllegalOpcode`, then one handler runs on the state
with its PC advanced. A fault carries no state: the state stays as it was (40_step_cycle.md R87). -/
def State.stepBy (s : State) (run : Instr → State → Result) : Result :=
  match s.fetch with
  | none => raise .addressOutOfRange
  | some op =>
    match decode op with
    | .error _ => raise .illegalOpcode
    | .ok i => run i s.advance

/-- `s` with the word `op` stored at the PC, where the next fetch reads it. -/
def State.placeWord (s : State) (op : Word) : State :=
  { s with mem := s.mem.writeBytes s.pc.toNat (bytesOfWord op) }

end Sys2Proof.Machine
end

