-- ==== Sys2Proof/Machine/Operands.lean ====
section
/-! DEFINITION. The operand forms (30_encoding.md R63; 43_index_memory.md R146) that are more than a field of the word or
a register. -/

namespace Sys2Proof.Machine

/-- `zext_16(nnn)`: an address field as a 16-bit value (30_encoding.md R63). -/
def zextAddr (nnn : Addr) : Word := nnn.setWidth 16

/-- `zext_16(b)`: a register's value in 16-bit arithmetic (00_scope.md R5). -/
def zextByte (b : Byte) : Word := b.setWidth 16

/-- `v[3:0]`: the low four bits of a register as a key number or a glyph number (92_eei_decisions.md D8). -/
def lowNibble (b : Byte) : Nibble := b.extractLsb' 0 4

/-- `EA = I + k`, unbounded, not truncated before the bounds check (43_index_memory.md R146; 20_memory.md R47). -/
def State.ea (s : State) (k : Nat) : Nat := s.i.toNat + k

/-- The address of glyph `d` (43_index_memory.md R142): `0x0050 + 5 * d`. -/
def glyphAddr (d : Nibble) : Word := BitVec.ofNat 16 (Config.fontBase + Config.fontGlyphBytes * d.toNat)

/-- The three decimal digits of a byte, hundreds first, each as a byte (43_index_memory.md R143). -/
def bcdDigits (b : Byte) : List Byte :=
  [BitVec.ofNat 8 (b.toNat / 100), BitVec.ofNat 8 (b.toNat / 10 % 10), BitVec.ofNat 8 (b.toNat % 10)]

/-- V0 to Vx, inclusive and ascending: `x + 1` bytes (43_index_memory.md R144). -/
def State.regsUpTo (s : State) (x : RegNum) : List Byte := s.v.toList.take (x.toNat + 1)

/-- The `n` bytes of a sprite, from `MEM[I]` on (44_display.md R153). -/
def State.spriteRows (s : State) (n : Nibble) : List Byte := s.mem.readBytes (s.ea 0) n.toNat

end Sys2Proof.Machine
end

