-- ==== Sys2Proof/Machine/ControlFlow.lean ====
section
/-! DEFINITION. The control-transfer instructions (41_control_flow.md). The state given to a meaning has its PC already
advanced (40_step_cycle.md R82): its `pc` is the spec's `PCn`. -/

namespace Sys2Proof.Machine

/-- SYS nnn (41_control_flow.md R100): `raise IllegalOpcode`, always. -/
def execSys (_nnn : Addr) (_s : State) : Result := raise .illegalOpcode

/-- RET (41_control_flow.md R101). -/
def execRet (s : State) : Result :=
  match s.pop with
  | some (w, t) => .next (t.jump w)
  | none => raise .stackUnderflow

/-- JP nnn (41_control_flow.md R102). -/
def execJp (nnn : Addr) (s : State) : Result := .next (s.jump (zextAddr nnn))

/-- CALL nnn (41_control_flow.md R103): the return address is `PCn`. -/
def execCall (nnn : Addr) (s : State) : Result :=
  match s.push s.pc with
  | some t => .next (t.jump (zextAddr nnn))
  | none => raise .stackOverflow

/-- SE Vx, kk (41_control_flow.md R104). -/
def execSeKk (x : RegNum) (kk : Byte) (s : State) : Result := .next (s.skipIf (s.reg x == kk))

/-- SNE Vx, kk (41_control_flow.md R105). -/
def execSneKk (x : RegNum) (kk : Byte) (s : State) : Result := .next (s.skipIf (s.reg x != kk))

/-- SE Vx, Vy (41_control_flow.md R106). -/
def execSeVy (x y : RegNum) (s : State) : Result := .next (s.skipIf (s.reg x == s.reg y))

/-- SNE Vx, Vy (41_control_flow.md R107). -/
def execSneVy (x y : RegNum) (s : State) : Result := .next (s.skipIf (s.reg x != s.reg y))

/-- JP V0, nnn (41_control_flow.md R108): the register is always V0, the sum is at most 0x10FE. -/
def execJp0 (nnn : Addr) (s : State) : Result := .next (s.jump (zextAddr nnn + zextByte (s.reg 0x0#4)))

end Sys2Proof.Machine
end

