-- ==== Sys2Proof/Machine/Flags.lean ====
section
/-! DEFINITION. The values that the flag-defining instructions give VF (10_state.md R12 and its flag table): always 0
or 1. -/

namespace Sys2Proof.Machine

/-- A condition as the value of VF. -/
def flagOf (c : Bool) : Byte := if c then 1 else 0

/-- ADD's carry (42_load_alu.md R126): the exact nine-bit sum exceeds 255. -/
def carryFlag (a b : Byte) : Byte := flagOf (decide (a.toNat + b.toNat > 255))

/-- The flag of SUB and SUBN (42_load_alu.md R127, R129; 90_conflicts.md C10): minuend strictly greater, unsigned. -/
def greaterFlag (a b : Byte) : Byte := flagOf (decide (a.toNat > b.toNat))

/-- The bit that SHR shifts out, `a[0]` (42_load_alu.md R128). -/
def lowBitFlag (a : Byte) : Byte := flagOf (a.getLsbD 0)

/-- The bit that SHL shifts out, `a[7]` (42_load_alu.md R130). -/
def highBitFlag (a : Byte) : Byte := flagOf (a.getLsbD 7)

/-- DRW's collision flag (44_display.md R151). -/
def collisionFlag (hit : Bool) : Byte := flagOf hit

end Sys2Proof.Machine
end

