-- ==== Sys2Proof/Machine/Display.lean ====
section
/-! DEFINITION. Display instructions (44_display.md). The PC stays at `PCn`. -/

namespace Sys2Proof.Machine

/-- CLS (44_display.md R150): VF is not written. -/
def execCls (s : State) : Result := .next { s with fb := Framebuffer.clear }

/-- The framebuffer and the collision of a sprite drawn over the state's framebuffer, from an empty collision
(44_display.md R151). The coordinates are sampled before VF is written. -/
def State.blit (s : State) (x y : RegNum) (n : Nibble) : Framebuffer × Bool :=
  blitRows (s.reg x).toNat (s.reg y).toNat (s.spriteRows n) (s.fb, false)

/-- DRW Vx, Vy, n (44_display.md R151): the bounds check first; then the sprite, and VF with the collision. -/
def execDrw (x y : RegNum) (n : Nibble) (s : State) : Result :=
  if InMemory (s.ea 0) n.toNat then
    .next ({ s with fb := (s.blit x y n).1 }.setReg vf (collisionFlag (s.blit x y n).2))
  else raise .addressOutOfRange

end Sys2Proof.Machine
end

