-- ==== Sys2Proof/Machine/IndexMemory.lean ====
section
/-! DEFINITION. Index-register and memory-transfer instructions (43_index_memory.md). The PC stays at `PCn`; a transfer
leaves I as it was (R146). -/

namespace Sys2Proof.Machine

/-- LD I, nnn (43_index_memory.md R140). -/
def execLdi (nnn : Addr) (s : State) : Result := .next { s with i := zextAddr nnn }

/-- ADD I, Vx (43_index_memory.md R141): modulo 65536, no flag. -/
def execAddi (x : RegNum) (s : State) : Result := .next { s with i := s.i + zextByte (s.reg x) }

/-- LD F, Vx (43_index_memory.md R142): reads no memory. -/
def execLdf (x : RegNum) (s : State) : Result := .next { s with i := glyphAddr (lowNibble (s.reg x)) }

/-- LD B, Vx (43_index_memory.md R143). -/
def execSbcd (x : RegNum) (s : State) : Result := s.storeBytes (s.ea 0) (bcdDigits (s.reg x))

/-- LD [I], Vx (43_index_memory.md R144): `x` is a count here. -/
def execSri (x : RegNum) (s : State) : Result := s.storeBytes (s.ea 0) (s.regsUpTo x)

/-- LD Vx, [I] (43_index_memory.md R145). -/
def execLir (x : RegNum) (s : State) : Result := s.loadRegs (s.ea 0) (x.toNat + 1)

end Sys2Proof.Machine
end

