-- ==== Sys2Proof/Machine/KeysTimers.lean ====
section
/-! DEFINITION. Key and timer instructions (45_keys_timers.md). None of them faults; the key flags never change. -/

namespace Sys2Proof.Machine

/-- SKP Vx (45_keys_timers.md R160). -/
def execSkp (x : RegNum) (s : State) : Result := .next (s.skipIf (s.keyDown (lowNibble (s.reg x))))

/-- SKNP Vx (45_keys_timers.md R161). -/
def execSknp (x : RegNum) (s : State) : Result := .next (s.skipIf (!s.keyDown (lowNibble (s.reg x))))

/-- LD Vx, K (45_keys_timers.md R162): with no key down the PC goes back to the instruction itself and nothing else
changes; else Vx takes the smallest key number. -/
def execLdk (x : RegNum) (s : State) : Result :=
  match s.lowestKey with
  | none => .next s.retreat
  | some k => .next (s.setReg x (BitVec.ofNat 8 k.val))

/-- LD Vx, DT (45_keys_timers.md R163). -/
def execLdVxDt (x : RegNum) (s : State) : Result := .next (s.setReg x s.dt)

/-- LD DT, Vx (45_keys_timers.md R164). -/
def execLdDtVx (x : RegNum) (s : State) : Result := .next { s with dt := s.reg x }

/-- LD ST, Vx (45_keys_timers.md R165). -/
def execLdStVx (x : RegNum) (s : State) : Result := .next { s with st := s.reg x }

end Sys2Proof.Machine
end

