-- ==== Sys2Proof/Machine/LoadAlu.lean ====
section
/-! DEFINITION. Register load, arithmetic, logic, shift and random instructions (42_load_alu.md). All arithmetic is
unsigned and wraps modulo 256 (R132); none of these faults; the PC stays at `PCn`. -/

namespace Sys2Proof.Machine

/-- LD Vx, kk (42_load_alu.md R120). -/
def execLd (x : RegNum) (kk : Byte) (s : State) : Result := .next (s.setReg x kk)

/-- ADD Vx, kk (42_load_alu.md R121): no flag. -/
def execAddKk (x : RegNum) (kk : Byte) (s : State) : Result := .next (s.setReg x (s.reg x + kk))

/-- LD Vx, Vy (42_load_alu.md R122). -/
def execLdVy (x y : RegNum) (s : State) : Result := .next (s.setReg x (s.reg y))

/-- OR Vx, Vy (42_load_alu.md R123): VF not written as a side effect. -/
def execOr (x y : RegNum) (s : State) : Result := .next (s.setReg x (s.reg x ||| s.reg y))

/-- AND Vx, Vy (42_load_alu.md R124): VF not written as a side effect. -/
def execAnd (x y : RegNum) (s : State) : Result := .next (s.setReg x (s.reg x &&& s.reg y))

/-- XOR Vx, Vy (42_load_alu.md R125): VF not written as a side effect. -/
def execXor (x y : RegNum) (s : State) : Result := .next (s.setReg x (s.reg x ^^^ s.reg y))

/-- ADD Vx, Vy (42_load_alu.md R126). -/
def execAdd (x y : RegNum) (s : State) : Result :=
  .next (s.setFlagThenReg x (carryFlag (s.reg x) (s.reg y)) (s.reg x + s.reg y))

/-- SUB Vx, Vy (42_load_alu.md R127). -/
def execSub (x y : RegNum) (s : State) : Result :=
  .next (s.setFlagThenReg x (greaterFlag (s.reg x) (s.reg y)) (s.reg x - s.reg y))

/-- SHR Vx (42_load_alu.md R128): the `y` of the word takes no part. -/
def execShr (x _y : RegNum) (s : State) : Result :=
  .next (s.setFlagThenReg x (lowBitFlag (s.reg x)) (s.reg x >>> 1))

/-- SUBN Vx, Vy (42_load_alu.md R129). -/
def execSubn (x y : RegNum) (s : State) : Result :=
  .next (s.setFlagThenReg x (greaterFlag (s.reg y) (s.reg x)) (s.reg y - s.reg x))

/-- SHL Vx (42_load_alu.md R130): the `y` of the word takes no part. -/
def execShl (x _y : RegNum) (s : State) : Result :=
  .next (s.setFlagThenReg x (highBitFlag (s.reg x)) (s.reg x <<< 1))

/-- The environment's next byte, and the state with the environment's place moved on (10_state.md R31; log entry 1). -/
def State.draw (s : State) : Byte × State := (Config.rnd s.draws, { s with draws := s.draws + 1 })

/-- RND Vx, kk (42_load_alu.md R131), on the environment's next byte. -/
def execRnd (x : RegNum) (kk : Byte) (s : State) : Result := .next (s.draw.2.setRandom x kk s.draw.1)

end Sys2Proof.Machine
end

