-- ==== Sys2Proof/Machine/Step.lean ====
section
/-! DEFINITION. One step: fetch, advance, decode, execute exactly one handler (40_step_cycle.md R80). -/

namespace Sys2Proof.Machine

/-- The step operation (40_step_cycle.md R80), with `rnd` the environment's next byte where the instruction is RND. -/
def step (s : State) : Host.Outcome State Fault Refusal := s.stepBy exec

/-- `s` with the instruction of an opcode-table word (its low `nbits` bits) stored where `step` fetches next. -/
def State.withFetchWord (s : State) (nbits w : Nat) : State := s.placeWord (BitVec.ofNat 16 (w % 2 ^ nbits))

end Sys2Proof.Machine
end

