-- ==== Sys2Proof/Machine/Driver.lean ====
section
/-! DEFINITION. The ports of the block (10_state.md R28, R29): the six operations the driver can issue, each one
indivisible event (R30). -/

namespace Sys2Proof.Machine

/-! ## `initialize` (70_reset_and_hazards.md R200 to R206) -/

/-- `initialize(rom)` (70_reset_and_hazards.md R200): fails iff the image is longer than 3584 bytes (R201); else every
element has its reset value, with the image in memory from 0x200 on (R203). -/
def Arch.initialise (rom : List Byte) : Except InitError Arch :=
  if rom.length > Config.romMax then .error .romTooLarge
  else .ok { State.reset.toArch with mem := Memory.image Config.romBase rom }

/-! ## `decrementTimers`, `setKeys` (60_exceptions.md R185, R188) -/

/-- One timer counted down, stopping at 0 (60_exceptions.md R185). -/
def countDown (t : Byte) : Byte := if t.toNat > 0 then t - 1 else t

/-- `decrementTimers()` (60_exceptions.md R185). -/
def Arch.decrementTimers (m : Arch) : Arch := { m with dt := countDown m.dt, st := countDown m.st }

/-- `setKeys(k)` (60_exceptions.md R188): bit `i` of the argument is key `i` down. -/
def Arch.setKeys (m : Arch) (k : Vector Bool 16) : Arch := { m with keys := k }

/-- `decrementTimers()` between two steps of the host's `step`. -/
def State.decrementTimers (s : State) : State := { s with toArch := s.toArch.decrementTimers }

/-- `setKeys(k)` between two steps of the host's `step`. -/
def State.setKeys (s : State) (k : Vector Bool 16) : State := { s with toArch := s.toArch.setKeys k }

/-! ## Read-only views (60_exceptions.md R187, R189) -/

/-- `framebuffer()`: the 2048 pixels row by row from the top, each row from the left (60_exceptions.md R189). -/
def Arch.framebuffer (m : Arch) : List Bool := m.fb.toList.flatMap Vector.toList

/-- The read-only sound-timer value (60_exceptions.md R187). -/
def Arch.soundValue (m : Arch) : Byte := m.st

/-- The tone signal, `ST ≠ 0` (60_exceptions.md R187). -/
def Arch.toneOn (m : Arch) : Bool := m.st != 0

/-! ## `step` at the port (40_step_cycle.md R87, R90, R91) -/

/-- What the step port answers (40_step_cycle.md R90); `refused` stands for a refusal of the model, which does not
arise. -/
inductive StepResult where
  | ok
  | fault (f : Fault)
  | refused (r : Refusal)
  deriving DecidableEq, Repr

/-- The spec's own numbers of the faults (60_exceptions.md R170, R176); `Ok` is 0. -/
def Fault.code : Fault → Nat
  | .illegalOpcode => 1
  | .stackOverflow => 2
  | .stackUnderflow => 3
  | .addressOutOfRange => 4

/-- A completed step commits its state, a fault leaves the state as it was (40_step_cycle.md R80 part 5 and "on any
raise", R87). -/
def State.commit (s : State) : Result → StepResult × State
  | .next t => (.ok, t)
  | .fault f => (.fault f, s)
  | .refused r => (.refused r, s)

/-- The host's `step` with the state it leaves. -/
def stepPort (s : State) : StepResult × State := s.commit (step s)

/-- Executing an instruction with the random byte of the step given (10_state.md R31): RND takes it, no other
instruction does. -/
def execOn (rnd : Byte) (i : Instr) (s : State) : Result :=
  match i with
  | .rnd x kk => .next (s.setRandom x kk rnd)
  | i => exec i s

/-- The spec's `step(σ, rnd)` (40_step_cycle.md R80, R91): a function of the architectural state and of the input byte. The
environment's place is not read (`execOn` never draws), so any stands for it. -/
def Arch.step (m : Arch) (rnd : Byte) : StepResult × Arch :=
  let s : State := { m with draws := 0 }
  let r := s.commit (s.stepBy (execOn rnd))
  (r.1, r.2.toArch)

/-! ## The block under its driver (10_state.md R29, R30, R34; 70_reset_and_hazards.md R206) -/

/-- An operation that the driver issues, with its data (10_state.md R29). -/
inductive Operation where
  | initialise (rom : List Byte)
  | step (rnd : Byte)
  | decrementTimers
  | setKeys (k : Vector Bool 16)
  | readFramebuffer
  | readSound
  deriving DecidableEq, Repr

/-- What an operation answers. -/
inductive Response where
  | initialised
  | initFailed (e : InitError)
  | stepped (r : StepResult)
  | done
  | pixels (p : List Bool)
  | sound (value : Byte)
  deriving DecidableEq, Repr

/-- `initialize` at the port: the machine it builds replaces whatever stood before, and when it fails no machine exists
(70_reset_and_hazards.md R201, R206). -/
def serveInitialise (rom : List Byte) : Response × Option Arch :=
  match Arch.initialise rom with
  | .ok m => (.initialised, some m)
  | .error e => (.initFailed e, none)

/-- An operation on a machine that exists. -/
def Arch.serve (m : Arch) : Operation → Response × Option Arch
  | .initialise rom => serveInitialise rom
  | .step rnd => (.stepped (m.step rnd).1, some (m.step rnd).2)
  | .decrementTimers => (.done, some m.decrementTimers)
  | .setKeys k => (.done, some (m.setKeys k))
  | .readFramebuffer => (.pixels m.framebuffer, some m)
  | .readSound => (.sound m.soundValue, some m)

/-- The block: `none` is the block before a successful `initialize`, where only `initialize` has a transition
(10_state.md R34). -/
def serve (b : Option Arch) (op : Operation) : Option (Response × Option Arch) :=
  match b, op with
  | some m, op => some (m.serve op)
  | none, .initialise rom => some (serveInitialise rom)
  | none, _ => none

/-- The block after a sequence of operations, none when one of them has no transition. -/
def serveAll (b : Option Arch) : List Operation → Option (Option Arch)
  | [] => some b
  | op :: ops =>
    match serve b op with
    | some (_, b') => serveAll b' ops
    | none => none

end Sys2Proof.Machine
end

