-- ==== Sys2Proof/Safety.lean ====
section
/-! DEFINITION. The terms in which claims are made: the elements of the state, one observation each; frames; which
elements each instruction may write; when a handler faults; the invariant of 10_state.md R33. -/

namespace Sys2Proof.Machine

/-! ## Elements of the state (10_state.md R10) -/

/-- One observable element of the state: a register, a slot, a key, a pixel, a byte of memory, or a whole register of
its own. `draws` is no element of the machine: it is the environment's place in its sequence of bytes (log entry 1), listed
so that a frame says what happens to it too. -/
inductive Element where
  | v (r : RegNum)
  | i
  | pc
  | stack (k : Fin 16)
  | sp
  | dt
  | st
  | key (k : Fin 16)
  | pixel (px : Fin 64) (py : Fin 32)
  | mem (a : Nat)
  | draws
  deriving DecidableEq, Repr

/-- What an element holds, as a number. Memory is observed through the read of one byte. -/
def Element.value : Element → State → Nat
  | .v r, s => (s.reg r).toNat
  | .i, s => s.i.toNat
  | .pc, s => s.pc.toNat
  | .stack k, s => s.stack[k].toNat
  | .sp, s => s.sp.val
  | .dt, s => s.dt.toNat
  | .st, s => s.st.toNat
  | .key k, s => s.keys[k].toNat
  | .pixel px py, s => (s.fb.pixel px.val py.val).toNat
  | .mem a, s => (s.byte a).toNat
  | .draws, s => s.draws

/-- The frame (00_scope.md R6): every element outside `W` holds in `t` what it held in `s`. -/
def Frame (W : Element → Prop) (s t : State) : Prop := ∀ e : Element, ¬ W e → e.value t = e.value s

/-- The frame with the written elements listed. -/
def FrameList (W : List Element) (s t : State) : Prop := Frame (fun e => e ∈ W) s t

/-! ## What each instruction may write (10_state.md R10, R13) -/

/-- Whether pixel (`px`, `py`) lies under a set bit of the `n`-row sprite at `MEM[I]`, drawn with its top left pixel at
column `x0`, row `y0` (44_display.md R151, R153): byte `r` of the sprite is `MEM[I + r]`, its column `c` is bit `7 - c`,
and each coordinate is reduced modulo 64 or 32. -/
def Covered (s : State) (n x0 y0 px py : Nat) : Prop :=
  ∃ r c : Nat, r < n ∧ c < 8 ∧ (s.byte (s.ea r)).getLsbD (7 - c) = true ∧ (x0 + c) % 64 = px ∧ (y0 + r) % 32 = py

/-- The pixels that DRW Vx, Vy, n draws over in `s` (44_display.md R151): the origin is (Vx, Vy). -/
def DrawnOver (s : State) (x y : RegNum) (n : Nibble) (px py : Nat) : Prop :=
  Covered s n.toNat (s.reg x).toNat (s.reg y).toNat px py

/-- Whether DRW Vx, Vy, n in `s` collides (44_display.md R151, R152 (a)): some pixel it draws over is on. -/
def Collides (s : State) (x y : RegNum) (n : Nibble) : Prop :=
  ∃ (px : Fin 64) (py : Fin 32), DrawnOver s x y n px.val py.val ∧ s.fb.pixel px.val py.val = true

/-- The elements that instruction `i`, executed in `s`, may write (10_state.md R10 column "Written by", R13, R15;
20_memory.md R48). The PC counts as written where the instruction sets it. -/
def Writes (i : Instr) (s : State) (e : Element) : Prop :=
  match i with
  | .sys _ => False
  | .cls => ∃ px py, e = .pixel px py
  | .ret => e = .pc ∨ e = .sp
  | .jp _ | .jp0 _ => e = .pc
  | .call _ => e = .pc ∨ e = .sp ∨ ∃ k : Fin 16, k.val = s.sp.val ∧ e = .stack k
  | .seKk _ _ | .sneKk _ _ | .seVy _ _ | .sneVy _ _ | .skp _ | .sknp _ => e = .pc
  | .ld x _ | .addKk x _ | .ldVy x _ | .or x _ | .and x _ | .xor x _ | .ldVxDt x => e = .v x
  | .add x _ | .sub x _ | .shr x _ | .subn x _ | .shl x _ => e = .v vf ∨ e = .v x
  | .ldi _ | .addi _ | .ldf _ => e = .i
  | .rnd x _ => e = .v x ∨ e = .draws
  | .drw x y n =>
    e = .v vf ∨ ∃ px py, e = .pixel px py ∧ DrawnOver s x y n px.val py.val
  | .ldk x => (s.lowestKey = none ∧ e = .pc) ∨ (s.lowestKey ≠ none ∧ e = .v x)
  | .ldDtVx _ => e = .dt
  | .ldStVx _ => e = .st
  | .sbcd _ => ∃ k, k < 3 ∧ e = .mem (s.ea k)
  | .sri x => ∃ k, k ≤ x.toNat ∧ e = .mem (s.ea k)
  | .lir x => ∃ r : RegNum, r.toNat ≤ x.toNat ∧ e = .v r

/-! ## When a handler faults (60_exceptions.md R170, R178) -/

/-- The fault that instruction `i` raises in `s`, none when it completes (60_exceptions.md R170 to R174). -/
def handlerFault (i : Instr) (s : State) : Option Fault :=
  match i with
  | .sys _ => some .illegalOpcode
  | .ret => if s.sp.val = 0 then some .stackUnderflow else none
  | .call _ => if s.sp.val = 16 then some .stackOverflow else none
  | .drw _ _ n => if 0 < n.toNat ∧ s.i.toNat + n.toNat - 1 > 0xFFF then some .addressOutOfRange else none
  | .sbcd _ => if s.i.toNat + 2 > 0xFFF then some .addressOutOfRange else none
  | .sri x | .lir x => if s.i.toNat + x.toNat > 0xFFF then some .addressOutOfRange else none
  | .cls | .jp _ | .jp0 _ | .ldi _ | .seKk _ _ | .sneKk _ _ | .seVy _ _ | .sneVy _ _ => none
  | .ld _ _ | .addKk _ _ | .ldVy _ _ | .or _ _ | .and _ _ | .xor _ _ | .add _ _ | .sub _ _ | .shr _ _ => none
  | .subn _ _ | .shl _ _ | .rnd _ _ | .skp _ | .sknp _ | .ldVxDt _ | .ldk _ | .ldDtVx _ | .ldStVx _ => none
  | .addi _ | .ldf _ => none

/-- The first fault of a step, in the order fetch, decode, handler (60_exceptions.md R178). -/
def stepFault (s : State) : Option Fault :=
  if s.pc.toNat + 1 > 0xFFF then some .addressOutOfRange
  else match decode (wordOfBytes (s.byte s.pc.toNat) (s.byte (s.pc.toNat + 1))) with
    | .error _ => some .illegalOpcode
    | .ok i => handlerFault i s.advance

/-- The PC that a step leaves with instruction `i`, by the table of 10_state.md R15 (SYS always faults: `pc0`); `pc0` is the PC before the step, `s` the
state before it. -/
def pcAfter (i : Instr) (pc0 : Nat) (s : State) : Nat :=
  match i with
  | .ldk _ => if s.lowestKey = none then pc0 else pc0 + 2
  | .jp nnn | .call nnn => nnn.toNat
  | .jp0 nnn => nnn.toNat + (s.reg 0x0#4).toNat
  | .ret => if h : 0 < s.sp.val then (s.stack[s.sp.val - 1]'(by omega)).toNat else pc0
  | .seKk x kk => if s.reg x = kk then pc0 + 4 else pc0 + 2
  | .sneKk x kk => if s.reg x ≠ kk then pc0 + 4 else pc0 + 2
  | .seVy x y => if s.reg x = s.reg y then pc0 + 4 else pc0 + 2
  | .sneVy x y => if s.reg x ≠ s.reg y then pc0 + 4 else pc0 + 2
  | .skp x => if s.keyDown (lowNibble (s.reg x)) = true then pc0 + 4 else pc0 + 2
  | .sknp x => if s.keyDown (lowNibble (s.reg x)) = false then pc0 + 4 else pc0 + 2
  | .sys _ => pc0
  | .cls | .ld _ _ | .addKk _ _ | .ldVy _ _ | .or _ _ | .and _ _ | .xor _ _ | .add _ _ | .sub _ _ => pc0 + 2
  | .shr _ _ | .subn _ _ | .shl _ _ | .ldi _ | .rnd _ _ | .drw _ _ _ | .ldVxDt _ | .ldDtVx _ | .ldStVx _ => pc0 + 2
  | .addi _ | .ldf _ | .sbcd _ | .sri _ | .lir _ => pc0 + 2

/-! ## The invariant (10_state.md R33) -/

/-- 10_state.md R33: the PC is at most 0x10FE, and every held return address at most 0x1000. (That SP is at most 16 and
that registers, timers and bytes are in range is in their types.) With it, the model's own canonical form of memory. -/
structure Arch.Inv (m : Arch) : Prop where
  pc_le : m.pc.toNat ≤ 0x10FE
  stack_le : ∀ k : Fin 16, k.val < m.sp.val → m.stack[k].toNat ≤ 0x1000
  mem_wf : m.mem.wf

/-- The invariant of the block: where a machine exists, its state meets `Arch.Inv` (10_state.md R34). -/
def BlockInv : Option Arch → Prop
  | none => True
  | some m => m.Inv

/-! ## Shapes of effect: what an instruction completes with, in every state -/

/-- The instruction always completes, sets the PC to `PCn + 2` when `c` holds of the state and leaves it at `PCn` when
not, and changes nothing else (41_control_flow.md R109). -/
def Skips (i : Instr) (c : State → Bool) : Prop :=
  ∀ s : State, ∃ t : State, exec i s = .next t ∧ t.pc = (if c s then s.pc + 2 else s.pc) ∧ FrameList [.pc] s t

/-- The instruction always completes, leaves `value` of the state before in register `x`, and changes nothing else. -/
def SetsReg (i : Instr) (x : RegNum) (value : State → Byte) : Prop :=
  ∀ s : State, ∃ t : State, exec i s = .next t ∧ t.reg x = value s ∧ FrameList [.v x] s t

/-- The instruction always completes, leaves `result` in register `x` and, where `x` is not VF, `flag` in VF, both
computed from the state before, and changes nothing else (40_step_cycle.md R85, R86). -/
def SetsRegAndFlag (i : Instr) (x : RegNum) (flag result : State → Byte) : Prop :=
  ∀ s : State, ∃ t : State, exec i s = .next t ∧ t.reg x = result s ∧ (x ≠ vf → t.reg vf = flag s) ∧
    FrameList [.v vf, .v x] s t

/-- The instruction always completes, leaves `value` of the state before in I, and changes nothing else. -/
def SetsIndex (i : Instr) (value : State → Nat) : Prop :=
  ∀ s : State, ∃ t : State, exec i s = .next t ∧ t.i.toNat = value s ∧ FrameList [.i] s t

/-! ## Replacing what only the environment or the driver sees -/

/-- The outcome with `f` applied to its next state. -/
def mapNext (f : State → State) : Result → Result
  | .next t => .next (f t)
  | .fault r => .fault r
  | .refused r => .refused r

end Sys2Proof.Machine
end

