-- ==== Sys2Proof/Certificates/Slice0/Obligations.lean ====
section
/-! DEFINITION. The statements for the provers. An instruction's statement says what `exec` answers in a state whose PC
has been advanced (`pc` there is the spec's `PCn`, 40_step_cycle.md R82), with its frame: `FrameList W s t` says that every
register, pixel, key, slot, timer, byte of memory and the PC, other than those in `W`, is as before. -/

open Sys2Proof Sys2Proof.Machine

/-! ## Control transfer (41_control_flow.md) -/

/-- 41_control_flow.md R100 (decision D2 of the spec): SYS raises IllegalOpcode, in every state, whatever its operand. -/
def Obligations.SysRaisesIllegalOpcode : Prop :=
  ∀ (nnn : Addr) (s : State), exec (.sys nnn) s = .fault .illegalOpcode

/-- 41_control_flow.md R101: RET on a held address pops it into the PC (the slot keeps its contents), on an empty stack
raises StackUnderflow; in states meeting the invariant the address is at most 0x1000; an address from which no fetch is
possible faults at the next step. -/
def Obligations.RetPopsReturnAddress : Prop :=
  decode 0x00EE#16 = .ok .ret ∧
  (∀ s : State, s.sp.val = 0 → exec .ret s = .fault .stackUnderflow) ∧
  ∀ (s : State) (_ : 0 < s.sp.val), ∃ t : State, exec .ret s = .next t ∧
    t.sp.val = s.sp.val - 1 ∧ t.pc = s.stack[s.sp.val - 1]'(by omega) ∧ FrameList [.pc, .sp] s t ∧
    (s.Inv → t.pc.toNat ≤ 0x1000) ∧
    (0xFFF ≤ t.pc.toNat → step t = .fault .addressOutOfRange)

/-- 41_control_flow.md R102: JP sets the PC to the zero-extended `nnn` and changes nothing else; `JP 0xFFF` succeeds and
the next step faults; a JP to its own address leaves the state as it was. -/
def Obligations.JpSetsPc : Prop :=
  ∀ nnn : Addr, decode (wordA 0x1 nnn) = .ok (.jp nnn) ∧
    (∀ s : State, ∃ t : State, exec (.jp nnn) s = .next t ∧ t.pc.toNat = nnn.toNat ∧ FrameList [.pc] s t ∧
      (nnn.toNat = 0xFFF → step t = .fault .addressOutOfRange)) ∧
    (∀ s : State, s.fetch = some (wordA 0x1 nnn) → s.pc.toNat = nnn.toNat → step s = .next s)

/-- 41_control_flow.md R103: CALL with fewer than 16 held addresses stores `PCn` in slot SP, adds 1 to SP and jumps; with
16 it raises StackOverflow. -/
def Obligations.CallPushesAndJumps : Prop :=
  ∀ nnn : Addr, decode (wordA 0x2 nnn) = .ok (.call nnn) ∧
    (∀ s : State, s.sp.val = 16 → exec (.call nnn) s = .fault .stackOverflow) ∧
    ∀ (s : State) (h : s.sp.val < 16), ∃ t : State, exec (.call nnn) s = .next t ∧
      t.stack[s.sp.val] = s.pc ∧ t.sp.val = s.sp.val + 1 ∧ t.pc.toNat = nnn.toNat ∧
      FrameList [.pc, .sp, .stack ⟨s.sp.val, h⟩] s t

/-- 41_control_flow.md R104: SE Vx, kk skips when the register equals the byte. -/
def Obligations.SeKkSkipsOnEqual : Prop :=
  ∀ (x : RegNum) (kk : Byte), decode (wordXK 0x3 x kk) = .ok (.seKk x kk) ∧
    Skips (.seKk x kk) fun s => s.reg x == kk

/-- 41_control_flow.md R105: SNE Vx, kk skips when the register differs from the byte. -/
def Obligations.SneKkSkipsOnDifferent : Prop :=
  ∀ (x : RegNum) (kk : Byte), decode (wordXK 0x4 x kk) = .ok (.sneKk x kk) ∧
    Skips (.sneKk x kk) fun s => s.reg x != kk

/-- 41_control_flow.md R106, R107: SE Vx, Vy skips when the registers are equal, so always for `x = y`; SNE Vx, Vy when
they differ, so never for `x = y`; words of class 5 and 9 with `n` not 0 are no instruction. -/
def Obligations.RegisterComparesSkip : Prop :=
  ∀ x y : RegNum,
    decode (wordXYN 0x5 x y 0x0) = .ok (.seVy x y) ∧ decode (wordXYN 0x9 x y 0x0) = .ok (.sneVy x y) ∧
    (∀ n : Nibble, n ≠ 0 → (∃ e, decode (wordXYN 0x5 x y n) = .error e) ∧ ∃ e, decode (wordXYN 0x9 x y n) = .error e) ∧
    (Skips (.seVy x y) fun s => s.reg x == s.reg y) ∧ (Skips (.sneVy x y) fun s => s.reg x != s.reg y) ∧
    (Skips (.seVy x x) fun _ => true) ∧ Skips (.sneVy x x) fun _ => false

/-- 41_control_flow.md R108: JP V0, nnn sets the PC to `nnn` plus V0, 0x0000 to 0x10FE without wrap, whatever bits 11 to 8
hold; a sum of 0xFFF or more faults at the next step. -/
def Obligations.Jp0AddsV0 : Prop :=
  ∀ nnn : Addr, decode (wordA 0xB nnn) = .ok (.jp0 nnn) ∧
    ∀ s : State, ∃ t : State, exec (.jp0 nnn) s = .next t ∧ t.pc.toNat = nnn.toNat + (s.reg 0x0#4).toNat ∧
      t.pc.toNat ≤ 0x10FE ∧ FrameList [.pc] s t ∧ (0xFFF ≤ t.pc.toNat → step t = .fault .addressOutOfRange)

/-! ## Load, arithmetic, logic, shift, random (42_load_alu.md) -/

/-- 42_load_alu.md R120: LD Vx, kk. -/
def Obligations.LdLoadsImmediate : Prop :=
  ∀ (x : RegNum) (kk : Byte), decode (wordXK 0x6 x kk) = .ok (.ld x kk) ∧ SetsReg (.ld x kk) x fun _ => kk

/-- 42_load_alu.md R122: LD Vx, Vy copies; with `x = y` the state is as before. -/
def Obligations.LdVyCopiesRegister : Prop :=
  ∀ x y : RegNum, decode (wordXYN 0x8 x y 0x0) = .ok (.ldVy x y) ∧ (SetsReg (.ldVy x y) x fun s => s.reg y) ∧
    ∀ s : State, exec (.ldVy x x) s = .next s

/-- 42_load_alu.md R121: ADD Vx, kk stores the sum modulo 256 and writes no flag (decision D7 of the spec): with `x` not
VF, VF is as before. -/
def Obligations.AddKkWrapsWithoutFlag : Prop :=
  ∀ (x : RegNum) (kk : Byte),
    SetsReg (.addKk x kk) x fun s => BitVec.ofNat 8 (((s.reg x).toNat + kk.toNat) % 256)

/-- 42_load_alu.md R123 to R125: OR, AND and XOR, bit by bit, write Vx only: VF is not cleared (decision D7 of the
spec). -/
def Obligations.LogicIsBitwiseWithoutFlag : Prop :=
  ∀ x y : RegNum, ∀ s : State,
    (∃ t : State, exec (.or x y) s = .next t ∧ FrameList [.v x] s t ∧
      ∀ b : Nat, b < 8 → (t.reg x).getLsbD b = ((s.reg x).getLsbD b || (s.reg y).getLsbD b)) ∧
    (∃ t : State, exec (.and x y) s = .next t ∧ FrameList [.v x] s t ∧
      ∀ b : Nat, b < 8 → (t.reg x).getLsbD b = ((s.reg x).getLsbD b && (s.reg y).getLsbD b)) ∧
    (∃ t : State, exec (.xor x y) s = .next t ∧ FrameList [.v x] s t ∧
      ∀ b : Nat, b < 8 → (t.reg x).getLsbD b = Bool.xor ((s.reg x).getLsbD b) ((s.reg y).getLsbD b))

/-- 42_load_alu.md R126: ADD stores the exact sum modulo 256 and sets VF to 1 iff it exceeds 255. Where `x` or `y` is VF
the statement rests on decision D5 of the spec (operands sampled first, the result written last). -/
def Obligations.AddSetsCarry : Prop :=
  ∀ x y : RegNum, SetsRegAndFlag (.add x y) x
    (fun s => if (s.reg x).toNat + (s.reg y).toNat > 255 then 1 else 0)
    (fun s => BitVec.ofNat 8 (((s.reg x).toNat + (s.reg y).toNat) % 256))

/-- 42_load_alu.md R127, R129: SUB and SUBN store the difference modulo 256 and set VF to 1 iff the minuend is strictly
greater. Where `x` or `y` is VF the statement rests on decision D5 of the spec. -/
def Obligations.SubtractsSetStrictFlag : Prop :=
  ∀ x y : RegNum,
    SetsRegAndFlag (.sub x y) x
      (fun s => if (s.reg x).toNat > (s.reg y).toNat then 1 else 0)
      (fun s => BitVec.ofNat 8 (((s.reg x).toNat + 256 - (s.reg y).toNat) % 256)) ∧
    SetsRegAndFlag (.subn x y) x
      (fun s => if (s.reg y).toNat > (s.reg x).toNat then 1 else 0)
      (fun s => BitVec.ofNat 8 (((s.reg y).toNat + 256 - (s.reg x).toNat) % 256))

/-- 42_load_alu.md R128, R130: SHR and SHL shift Vx by one and put the bit shifted out in VF; every `y` gives the same.
Where `x` is VF the statement rests on decision D5 of the spec. -/
def Obligations.ShiftsKeepShiftedOutBit : Prop :=
  ∀ x y : RegNum,
    SetsRegAndFlag (.shr x y) x (fun s => BitVec.ofNat 8 ((s.reg x).toNat % 2))
      (fun s => BitVec.ofNat 8 ((s.reg x).toNat / 2)) ∧
    SetsRegAndFlag (.shl x y) x (fun s => BitVec.ofNat 8 ((s.reg x).toNat / 128))
      (fun s => BitVec.ofNat 8 (2 * (s.reg x).toNat % 256))

/-- 42_load_alu.md R131: RND stores the random byte of the step under the mask: first with the byte given, for every byte, as
the spec's step has it as an input (10_state.md R31); then under the host's `step`, where the byte is the environment's next,
the model's free value (log entry 1), whatever the environment's place, which moves on by one. -/
def Obligations.RndMasksFreeByte : Prop :=
  ∀ (x : RegNum) (kk : Byte) (s : State),
    (∀ rnd : Byte, ∃ t : State, execOn rnd (.rnd x kk) s = .next t ∧ t.reg x = rnd &&& kk ∧ FrameList [.v x] s t ∧
      ∀ b : Nat, kk.getLsbD b = false → (t.reg x).getLsbD b = false) ∧
    ∃ t : State, exec (.rnd x kk) s = .next t ∧
      t.reg x = Config.rnd s.draws &&& kk ∧ t.draws = s.draws + 1 ∧ FrameList [.v x, .draws] s t ∧
      ∀ b : Nat, kk.getLsbD b = false → (t.reg x).getLsbD b = false

/-! ## Index register and memory transfers (43_index_memory.md) -/

/-- 43_index_memory.md R140: LD I, nnn. -/
def Obligations.LdiLoadsIndex : Prop :=
  ∀ nnn : Addr, decode (wordA 0xA nnn) = .ok (.ldi nnn) ∧ SetsIndex (.ldi nnn) fun _ => nnn.toNat

/-- 43_index_memory.md R141, R142: ADD I, Vx adds modulo 65536 and writes no flag (decisions D7, D15 of the spec); LD F, Vx
points I at the glyph of the low nibble (decision D8 of the spec). -/
def Obligations.AddiWrapsLdfPointsAtGlyph : Prop :=
  ∀ x : RegNum,
    (SetsIndex (.addi x) fun s => (s.i.toNat + (s.reg x).toNat) % 65536) ∧
    SetsIndex (.ldf x) fun s => 0x0050 + 5 * ((s.reg x).toNat % 16)

/-- 43_index_memory.md R143: SBCD stores the decimal digits of Vx at I, I + 1, I + 2 and nothing else; when I + 2 exceeds
0xFFF it raises AddressOutOfRange (decision D3 of the spec). -/
def Obligations.SbcdStoresDecimalDigits : Prop :=
  ∀ (x : RegNum) (s : State),
    (s.i.toNat + 2 > 0xFFF → exec (.sbcd x) s = .fault .addressOutOfRange) ∧
    (s.i.toNat + 2 ≤ 0xFFF → ∃ t : State, exec (.sbcd x) s = .next t ∧
      (t.byte (s.ea 0)).toNat = (s.reg x).toNat / 100 ∧
      (t.byte (s.ea 1)).toNat = (s.reg x).toNat / 10 % 10 ∧
      (t.byte (s.ea 2)).toNat = (s.reg x).toNat % 10 ∧
      FrameList [.mem (s.ea 0), .mem (s.ea 1), .mem (s.ea 2)] s t)

/-- 43_index_memory.md R144: SRI stores V0 to Vx at I to I + x and nothing else, I included (decision D6 of the spec); when
I + x exceeds 0xFFF it raises AddressOutOfRange (decision D3 of the spec). -/
def Obligations.SriStoresRegisters : Prop :=
  ∀ (x : RegNum) (s : State),
    (s.i.toNat + x.toNat > 0xFFF → exec (.sri x) s = .fault .addressOutOfRange) ∧
    (s.i.toNat + x.toNat ≤ 0xFFF → ∃ t : State, exec (.sri x) s = .next t ∧
      (∀ r : RegNum, r.toNat ≤ x.toNat → t.byte (s.ea r.toNat) = s.reg r) ∧
      Frame (fun e => ∃ k, k ≤ x.toNat ∧ e = .mem (s.ea k)) s t)

/-- 43_index_memory.md R145: LIR loads V0 to Vx from I to I + x and changes nothing else, I included (decision D6 of the
spec); when I + x exceeds 0xFFF it raises AddressOutOfRange (decision D3 of the spec). -/
def Obligations.LirLoadsRegisters : Prop :=
  ∀ (x : RegNum) (s : State),
    (s.i.toNat + x.toNat > 0xFFF → exec (.lir x) s = .fault .addressOutOfRange) ∧
    (s.i.toNat + x.toNat ≤ 0xFFF → ∃ t : State, exec (.lir x) s = .next t ∧
      (∀ r : RegNum, r.toNat ≤ x.toNat → t.reg r = s.byte (s.ea r.toNat)) ∧
      Frame (fun e => ∃ r : RegNum, r.toNat ≤ x.toNat ∧ e = .v r) s t)

/-- 43_index_memory.md R145: LIR after SRI with the same I and `x`, over the memory SRI left, restores the registers,
whatever the registers hold in between. -/
def Obligations.LirAfterSriRestores : Prop :=
  ∀ (x : RegNum) (s t u : State), exec (.sri x) s = .next t → u.mem = t.mem → u.i = t.i →
    ∃ w : State, exec (.lir x) u = .next w ∧ ∀ r : RegNum, r.toNat ≤ x.toNat → w.reg r = s.reg r

/-! ## Display (44_display.md) -/

/-- 44_display.md R150: CLS turns every pixel off and changes nothing else. -/
def Obligations.ClsClearsFramebuffer : Prop :=
  decode 0x00E0#16 = .ok .cls ∧
  ∀ s : State, ∃ t : State, exec .cls s = .next t ∧
    (∀ (px : Fin 64) (py : Fin 32), t.fb.pixel px.val py.val = false) ∧
    Frame (fun e => ∃ px py, e = .pixel px py) s t

/-- 44_display.md R151: DRW inverts exactly the pixels under set sprite bits, with wrap-around on both axes, and sets VF to 1
iff one of them was on; it faults when the sprite would be read beyond 0xFFF (decision D3 of the spec), never for `n = 0`,
which draws nothing and clears VF (decision D26). Orientation and bit order are the spec's general knowledge (D17). -/
def Obligations.DrwDrawsByXor : Prop :=
  ∀ (x y : RegNum) (n : Nibble) (s : State),
    (0 < n.toNat → s.i.toNat + n.toNat - 1 > 0xFFF → exec (.drw x y n) s = .fault .addressOutOfRange) ∧
    (n.toNat = 0 ∨ s.i.toNat + n.toNat - 1 ≤ 0xFFF → ∃ t : State, exec (.drw x y n) s = .next t ∧
      (∀ (px : Fin 64) (py : Fin 32),
        (DrawnOver s x y n px.val py.val → t.fb.pixel px.val py.val = !(s.fb.pixel px.val py.val)) ∧
        (¬ DrawnOver s x y n px.val py.val → t.fb.pixel px.val py.val = s.fb.pixel px.val py.val)) ∧
      (Collides s x y n → t.reg vf = 1) ∧ (¬ Collides s x y n → t.reg vf = 0) ∧
      Frame (fun e => e = .v vf ∨ ∃ px py, e = .pixel px py) s t)

/-- 44_display.md R152 (b), (e): two DRW with the same I, memory and coordinates leave the framebuffer as it was, and after
the second VF is 1 iff some pixel drawn over was off before the first. -/
def Obligations.DrwTwiceRestoresPixels : Prop :=
  ∀ (x y : RegNum) (n : Nibble) (s t u : State), exec (.drw x y n) s = .next t →
    u.fb = t.fb → u.i = s.i → u.mem = s.mem → u.reg x = s.reg x → u.reg y = s.reg y →
    ∃ w : State, exec (.drw x y n) u = .next w ∧ w.fb = s.fb ∧
      (w.reg vf = 1 ↔ ∃ (px : Fin 64) (py : Fin 32), DrawnOver s x y n px.val py.val ∧
        s.fb.pixel px.val py.val = false)

/-! ## Keys and timers (45_keys_timers.md) -/

/-- 45_keys_timers.md R160, R161: SKP skips when the key named by the low nibble of Vx is down, SKNP when it is not (the low
nibble by decision D8 of the spec). -/
def Obligations.KeySkipsTestLowNibbleKey : Prop :=
  ∀ x : RegNum,
    (Skips (.skp x) fun s => s.keys[(s.reg x).toNat % 16]'(Nat.mod_lt _ (by decide))) ∧
    Skips (.sknp x) fun s => !(s.keys[(s.reg x).toNat % 16]'(Nat.mod_lt _ (by decide)))

/-- 45_keys_timers.md R162: LDK with no key down goes back to its own address and changes nothing else; with a key down it
writes the smallest key number that is down (level and smallest key by decision D9 of the spec) and changes nothing
else. A whole step with no key down leaves the state as it was (40_step_cycle.md R88). -/
def Obligations.LdkWaitsOrTakesLowestKey : Prop :=
  ∀ (x : RegNum) (s : State),
    ((∀ k : Fin 16, s.keys[k] = false) → ∃ t : State, exec (.ldk x) s = .next t ∧ t.pc = s.pc - 2 ∧ FrameList [.pc] s t) ∧
    (∀ k : Fin 16, s.keys[k] = true → (∀ j : Fin 16, j < k → s.keys[j] = false) →
      ∃ t : State, exec (.ldk x) s = .next t ∧ (t.reg x).toNat = k.val ∧ FrameList [.v x] s t) ∧
    ((∀ k : Fin 16, s.keys[k] = false) → s.fetch = some (wordXK 0xF x 0x0A) → step s = .next s)

/-- 45_keys_timers.md R163 to R165: the three timer moves. -/
def Obligations.TimerMoves : Prop :=
  ∀ x : RegNum,
    decode (wordXK 0xF x 0x07) = .ok (.ldVxDt x) ∧ decode (wordXK 0xF x 0x15) = .ok (.ldDtVx x) ∧
    decode (wordXK 0xF x 0x18) = .ok (.ldStVx x) ∧
    (SetsReg (.ldVxDt x) x fun s => s.dt) ∧
    ∀ s : State,
      (∃ t : State, exec (.ldDtVx x) s = .next t ∧ t.dt = s.reg x ∧ FrameList [.dt] s t) ∧
      (∃ t : State, exec (.ldStVx x) s = .next t ∧ t.st = s.reg x ∧ FrameList [.st] s t ∧
        (t.toneOn = true ↔ s.reg x ≠ 0))

/-! ## Encoding (30_encoding.md) -/

/-- Words written out from the encodings of 30_encoding.md R65 and its section 7 decode to the instructions they stand
for. -/
def Obligations.SampleWordsDecode : Prop :=
  decode 0x600A#16 = .ok (.ld 0x0 0x0A) ∧ decode 0x6105#16 = .ok (.ld 0x1 0x05) ∧
  decode 0x8014#16 = .ok (.add 0x0 0x1) ∧ decode 0x8017#16 = .ok (.subn 0x0 0x1) ∧
  decode 0xD125#16 = .ok (.drw 0x1 0x2 0x5) ∧ decode 0x8AB6#16 = .ok (.shr 0xA 0xB) ∧
  decode 0x5121#16 = .error .illegalClass5 ∧ decode 0x0000#16 = .ok (.sys 0x000) ∧
  decode 0xF375#16 = .error .illegalClassF ∧ decode 0x220A#16 = .ok (.call 0x20A) ∧
  decode 0xE39E#16 = .ok (.skp 0x3) ∧ decode 0xF255#16 = .ok (.sri 0x2)

/-- 30_encoding.md R65: decoding the bytes of a well-formed instruction gives it back, with every operand, and leaves the
bytes after it. For SHR and SHL the operand `y`, which the spec ignores (R69), comes back because the model keeps it in the
term (log entry 2). -/
def Obligations.DecodeOfEncode : Prop :=
  ∀ (i : Instr) (rest : List Byte), i.wellFormed = true → decodeBytes (encodeBytes i ++ rest) = .ok (i, rest)

/-- 30_encoding.md R60, R65, R66: every word that decodes is the encoding of what it decodes to, which is well-formed. That no
two words mean one instruction term and no bit is dropped is, for SHR and SHL, the model's choice: it keeps the ignored field
`y` in the term (log entry 2, DESIGN CHOICE), where R69 says that all 16 values of `y` give the same instruction. -/
def Obligations.EncodeOfDecode : Prop :=
  ∀ (op : Word) (i : Instr), decode op = .ok i → i.wellFormed = true ∧ encode i = op

/-- 30_encoding.md R64, R65, R66: the two-level dispatch and the table of masks and matches are the same function: for every
word both give the same instruction id, or neither gives one. -/
def Obligations.DispatchAgreesWithOpcodeMap : Prop :=
  ∀ op : Word, (match decode op with | .ok i => some i.id | .error _ => none) = lookupId op

/-- 30_encoding.md R66: some word selects two different rows of the map exactly where the rows are SYS and CLS or SYS and
RET. -/
def Obligations.OpcodeRowsOverlapOnlyInSys : Prop :=
  ∀ r ∈ opcodeMap, ∀ q ∈ opcodeMap, r ≠ q →
    ((∃ op : Word, op &&& r.mask = r.pattern ∧ op &&& q.mask = q.pattern) ↔
      (r.id = "SYS" ∧ (q.id = "CLS" ∨ q.id = "RET")) ∨ (q.id = "SYS" ∧ (r.id = "CLS" ∨ r.id = "RET")))

/-- 30_encoding.md R67: the words that are no instruction, class by class; each of them, fetched, makes the step raise
IllegalOpcode. -/
def Obligations.IllegalWordsFault : Prop :=
  ∀ op : Word,
    ((∃ e, decode op = .error e) ↔
      (op.toNat / 4096 = 5 ∧ op.toNat % 16 ≠ 0) ∨
      (op.toNat / 4096 = 8 ∧ op.toNat % 16 ∈ [0x8, 0x9, 0xA, 0xB, 0xC, 0xD, 0xF]) ∨
      (op.toNat / 4096 = 9 ∧ op.toNat % 16 ≠ 0) ∨
      (op.toNat / 4096 = 0xE ∧ op.toNat % 256 ∉ [0x9E, 0xA1]) ∨
      (op.toNat / 4096 = 0xF ∧ op.toNat % 256 ∉ [0x07, 0x0A, 0x15, 0x18, 0x1E, 0x29, 0x33, 0x55, 0x65])) ∧
    ∀ (s : State) (e : DecodeError), s.fetch = some op → decode op = .error e → step s = .fault .illegalOpcode

/-! ## The step (40_step_cycle.md) -/

/-- 20_memory.md R42, R44: the fetch reads the bytes at PC and PC + 1 and forms the word with the first byte high. That this holds
at an odd PC as at an even one is R45, by decision D11 of the spec (log entry 3). (A PC of 0xFFF or more is a fault:
`Obligations.StepFaultsInOrder`.) -/
def Obligations.FetchIsBigEndian : Prop :=
  ∀ s : State, s.pc.toNat ≤ 0xFFE → ∃ op : Word, s.fetch = some op ∧
    op.toNat = (s.byte s.pc.toNat).toNat * 256 + (s.byte (s.pc.toNat + 1)).toNat

/-- 40_step_cycle.md R80 to R84: when the bytes at the PC decode to an instruction, it is well-formed and the step executes
exactly it, on the state with the PC advanced by 2. -/
def Obligations.StepExecutesDecodedInstruction : Prop :=
  ∀ (s : State) (i : Instr), s.pc.toNat + 1 ≤ 0xFFF →
    decode (wordOfBytes (s.byte s.pc.toNat) (s.byte (s.pc.toNat + 1))) = .ok i →
    i.wellFormed = true ∧ step s = exec i { s with pc := s.pc + 2 }

/-- 60_exceptions.md R170 to R174: a handler raises a fault exactly under its conditions, and no other. -/
def Obligations.HandlerFaultsExactly : Prop :=
  ∀ (i : Instr) (s : State) (f : Fault), exec i s = .fault f ↔ handlerFault i s = some f

/-- 60_exceptions.md R178: a step raises the first fault in the order fetch, decode, handler, and completes exactly when
there is none; it never refuses (40_step_cycle.md R90, R91: five results, a total function). -/
def Obligations.StepFaultsInOrder : Prop :=
  ∀ s : State,
    (∀ f : Fault, step s = .fault f ↔ stepFault s = some f) ∧
    ((∃ t : State, step s = .next t) ↔ stepFault s = none) ∧
    ∀ r : Refusal, step s ≠ .refused r

/-- 40_step_cycle.md R87 (decision D4 of the spec): a step that faults leaves every element as it was, and a repeated step
faults again. -/
def Obligations.FaultChangesNothing : Prop :=
  ∀ (s t : State) (f : Fault), stepPort s = (.fault f, t) → t = s ∧ stepPort t = (.fault f, t)

/-- 10_state.md R15: the PC after a completed step, by the spec's table. -/
def Obligations.PcAfterStepByTable : Prop :=
  ∀ (s t : State) (i : Instr) (op : Word), s.fetch = some op → decode op = .ok i → step s = .next t →
    t.pc.toNat = pcAfter i s.pc.toNat s

/-- 00_scope.md R6, 10_state.md R10, R13: a completed instruction, any of the 35, changes no element but those the spec lets
it write. -/
def Obligations.EveryInstructionKeepsItsFrame : Prop :=
  ∀ (i : Instr) (s t : State), exec i s = .next t → Frame (Writes i s) s t

/-- 40_step_cycle.md R89: a step changes DT only by LD_DT_VX, ST only by LD_ST_VX, and never a key flag. -/
def Obligations.StepLeavesKeysAndTimers : Prop :=
  ∀ (s t : State) (i : Instr) (op : Word), s.fetch = some op → decode op = .ok i → step s = .next t →
    t.keys = s.keys ∧ ((∀ x, i ≠ .ldDtVx x) → t.dt = s.dt) ∧ ((∀ x, i ≠ .ldStVx x) → t.st = s.st)

/-- 40_step_cycle.md R91: the random byte matters only to RND: a step that fetches any other word gives the same result and
state for every two bytes; and under the host's `step` every other instruction does the same wherever the environment stands
in its sequence (log entry 1), and leaves it there. -/
def Obligations.RandomByteOnlyInRnd : Prop :=
  (∀ (s : State) (op : Word), s.fetch = some op → (∀ x kk, decode op ≠ .ok (.rnd x kk)) →
    ∀ a b : Byte, s.toArch.step a = s.toArch.step b) ∧
  ∀ (i : Instr) (s : State) (d : Nat), (∀ x kk, i ≠ .rnd x kk) →
    exec i { s with draws := d } = mapNext (fun t => { t with draws := d }) (exec i s)

/-- 40_step_cycle.md R91, 10_state.md R31: the host's `step` is the spec's step, a function of the architectural state and of one
input byte, with the environment's next byte for the input: result and architectural state agree, wherever the environment
stands. The sequence `Config.rnd` is the model's (log entry 1); the machine holds no part of it (10_state.md R25 (d), decision
D12 of the spec). -/
def Obligations.HostStepIsStepOfNextByte : Prop :=
  ∀ s : State, s.toArch.step (Config.rnd s.draws) = ((stepPort s).1, (stepPort s).2.toArch)

/-- 10_state.md R21: a program cannot read ST: two states that differ in ST only go the same way, and after it differ in ST
at most, first with the same random byte given to both, for every byte, then under `exec`, where both take the environment's
same next byte (the model's choice, log entry 1). -/
def Obligations.SoundTimerIsNeverRead : Prop :=
  ∀ (i : Instr) (s : State) (b : Byte),
    (∀ rnd : Byte, (∀ f : Fault, execOn rnd i s = .fault f → execOn rnd i { s with st := b } = .fault f) ∧
      ∀ t : State, execOn rnd i s = .next t → ∃ u : State, execOn rnd i { s with st := b } = .next u ∧ FrameList [.st] t u) ∧
    (∀ f : Fault, exec i s = .fault f → exec i { s with st := b } = .fault f) ∧
    ∀ t : State, exec i s = .next t → ∃ u : State, exec i { s with st := b } = .next u ∧ FrameList [.st] t u

/-- 41_control_flow.md R103 (the source's property E9): CALL, then RET at the target, gives back the address after the
CALL and the stack depth, for every depth up to 15. -/
def Obligations.CallThenRetReturns : Prop :=
  ∀ (nnn : Addr) (s : State), s.sp.val ≤ 15 → ∃ t u : State, exec (.call nnn) s = .next t ∧
    exec .ret t.advance = .next u ∧ u.pc = s.pc ∧ u.sp = s.sp

/-- 20_memory.md R43, R56: two bytes that SRI stores are what the next fetch at their address reads, the byte of the lower
address high (no protection, immediate visibility: decision D18 of the spec). -/
def Obligations.StoredWordIsFetched : Prop :=
  ∀ (x a b : RegNum) (s t u : State), exec (.sri x) s = .next t → u.mem = t.mem →
    a.toNat + 1 = b.toNat → b.toNat ≤ x.toNat → u.pc.toNat = s.ea a.toNat →
    u.fetch = some (wordOfBytes (s.reg a) (s.reg b))

/-! ## The invariant and the state (10_state.md R33) -/

/-- 10_state.md R33 (derived by the spec): a step from any state that meets the invariant ends in one that meets it: the PC
and the held return addresses stay in their bounds, and memory keeps its canonical form (the model's own, log entry 5). -/
def Obligations.StepKeepsInvariant : Prop :=
  ∀ s t : State, s.Inv → step s = .next t → t.Inv

/-- 10_state.md R33 (derived by the spec), R32: the invariant holds right after reset. That the state after reset is
`State.reset`, the one `initialize` builds from the empty image, is log entry 4 (DEDUCED); the canonical form of memory in the
invariant is the model's own, log entry 5 (DESIGN CHOICE). -/
def Obligations.ResetMeetsInvariant : Prop := State.reset.Inv

/-- 10_state.md R33 (derived by the spec): every operation of the driver, from any block that meets the invariant, leaves one
that meets it, a step whatever its random byte. The canonical form of memory in the invariant is the model's own (log entry 5);
that the operations stand beside the host's `step` is log entry 6. -/
def Obligations.OperationsKeepInvariant : Prop :=
  ∀ (b b' : Option Arch) (op : Operation) (r : Response), BlockInv b → serve b op = some (r, b') → BlockInv b'

/-- 10_state.md R33 (derived by the spec): every state reachable from the block before `initialize`, by any sequence of
operations with any arguments, random bytes included, meets the invariant. The canonical form of memory in the invariant is the
model's own (log entry 5, DESIGN CHOICE); that the operations stand beside the host's `step` is log entry 6. -/
def Obligations.ReachableMeetsInvariant : Prop :=
  ∀ (ops : List Operation) (m : Arch), serveAll none ops = some (some m) → m.Inv

/-- 10_state.md R10: the ten elements are the whole architectural state: two states with memories in canonical form that agree in
every element of the machine have the same architectural state; if the environment also stands at the same place (log entry 1),
they are the same state of the model. -/
def Obligations.ElementsDetermineState : Prop :=
  ∀ s t : State, s.mem.wf → t.mem.wf → (∀ e : Element, e ≠ .draws → e.value s = e.value t) →
    s.toArch = t.toArch ∧ (s.draws = t.draws → s = t)

/-! ## The ports (60_exceptions.md, 70_reset_and_hazards.md) -/

/-- 10_state.md R32: every element after `initialize` with an image of at most 3584 bytes, memory range by range. -/
def Obligations.InitialisedStateByTable : Prop :=
  ∀ rom : List Byte, rom.length ≤ 3584 → ∃ s : State, Arch.initialise rom = .ok s.toArch ∧
    (∀ r : RegNum, s.reg r = 0) ∧ s.i = 0 ∧ s.pc = 0x0200 ∧ s.sp = 0 ∧ (∀ k : Fin 16, s.stack[k] = 0) ∧
    s.dt = 0 ∧ s.st = 0 ∧ (∀ k : Fin 16, s.keys[k] = false) ∧
    (∀ (px : Fin 64) (py : Fin 32), s.fb.pixel px.val py.val = false) ∧
    (∀ a : Nat, a ≤ 0x04F → s.byte a = 0) ∧
    (∀ j : Nat, j ≤ 79 → Config.fontTable[j]? = some (s.byte (0x050 + j))) ∧
    (∀ a : Nat, 0x0A0 ≤ a → a ≤ 0x1FF → s.byte a = 0) ∧
    (∀ j : Nat, j < rom.length → rom[j]? = some (s.byte (0x200 + j))) ∧
    (∀ a : Nat, 0x200 + rom.length ≤ a → a ≤ 0xFFF → s.byte a = 0)

/-- 60_exceptions.md R175: `initialize` fails with RomTooLarge exactly above 3584 bytes, and then no machine exists,
whatever stood before. -/
def Obligations.RomTooLargeConstructsNoMachine : Prop :=
  ∀ rom : List Byte,
    (Arch.initialise rom = .error .romTooLarge ↔ rom.length > 3584) ∧
    (rom.length > 3584 → ∀ b : Option Arch, serve b (.initialise rom) = some (.initFailed .romTooLarge, none))

/-- The reset state is what `initialize` builds from the empty image (log entry 4; decision D27 of the spec). -/
def Obligations.ResetIsEmptyInitialisation : Prop := Arch.initialise [] = .ok State.reset.toArch

/-- 10_state.md R34, 70_reset_and_hazards.md R206 (decision D23 of the spec): with no machine only `initialize` has a
transition, and `initialize` does the same whatever state stood before. -/
def Obligations.InitialiseReplacesTheMachine : Prop :=
  (∀ op : Operation, (∀ rom, op ≠ .initialise rom) → serve none op = none) ∧
  ∀ (b : Option Arch) (rom : List Byte), serve b (.initialise rom) = serve none (.initialise rom)

/-- 60_exceptions.md R185: `decrementTimers` takes one from each timer that is not 0, leaves a timer at 0 (decision D10 of
the spec), and changes nothing else. -/
def Obligations.DecrementTimersStopsAtZero : Prop :=
  ∀ s : State, s.decrementTimers.dt.toNat = s.dt.toNat - 1 ∧ s.decrementTimers.st.toNat = s.st.toNat - 1 ∧
    FrameList [.dt, .st] s s.decrementTimers ∧
    serve (some s.toArch) .decrementTimers = some (.done, some s.decrementTimers.toArch)

/-- 60_exceptions.md R188: `setKeys` sets every key flag and changes nothing else; the flags then hold through a step
(decision D19 of the spec). -/
def Obligations.SetKeysSetsEveryFlag : Prop :=
  ∀ (s : State) (k : Vector Bool 16),
    (∀ j : Fin 16, (s.setKeys k).keys[j] = k[j]) ∧ Frame (fun e => ∃ j, e = .key j) s (s.setKeys k) ∧
    serve (some s.toArch) (.setKeys k) = some (.done, some (s.setKeys k).toArch) ∧
    (stepPort (s.setKeys k)).2.keys = k ∧ ∀ rnd : Byte, ((s.toArch.setKeys k).step rnd).2.keys = k

/-- 60_exceptions.md R187: the sound output is ST, the tone is on iff it is not 0, and reading it changes nothing. -/
def Obligations.SoundOutputIsSt : Prop :=
  ∀ m : Arch, serve (some m) .readSound = some (.sound m.st, some m) ∧ (m.toneOn = true ↔ m.st.toNat ≠ 0)

/-- 60_exceptions.md R189: the framebuffer view is 2048 pixels, element `py * 64 + px` being pixel (`px`, `py`) (the order by
decision D14 of the spec), and reading it changes nothing. -/
def Obligations.FramebufferViewIsRowMajor : Prop :=
  ∀ m : Arch, m.framebuffer.length = 2048 ∧
    (∀ (px : Fin 64) (py : Fin 32), m.framebuffer[py.val * 64 + px.val]? = some (m.fb.pixel px.val py.val)) ∧
    serve (some m) .readFramebuffer = some (.pixels m.framebuffer, some m)
end

