-- ==== Sys2Proof/Laws/Decode.lean ====
section
/-! SUPPORT. The words that the formats of 30_encoding.md R62 build, as numbers, and the fields of R61 read back from
them. -/

namespace Sys2Proof

/-- A concatenation as a number: `{hi, lo}` with `hi` in the high bits (00_scope.md R4). -/
theorem toNat_append_eq {m n : Nat} (hi : BitVec m) (lo : BitVec n) :
    (hi ++ lo).toNat = hi.toNat * 2 ^ n + lo.toNat := by
  rw [BitVec.toNat_append, ← Nat.shiftLeft_add_eq_or_of_lt lo.isLt, Nat.shiftLeft_eq]

/-! ## Encoded words as numbers -/

theorem toNat_wordA (c : Nibble) (nnn : Addr) : (wordA c nnn).toNat = c.toNat * 4096 + nnn.toNat :=
  toNat_append_eq c nnn

theorem toNat_wordXK (c : Nibble) (x : RegNum) (kk : Byte) :
    (wordXK c x kk).toNat = c.toNat * 4096 + x.toNat * 256 + kk.toNat := by
  have h1 := toNat_append_eq c (x ++ kk)
  have h2 := toNat_append_eq x kk
  have h3 : (wordXK c x kk).toNat = (c ++ (x ++ kk)).toNat := rfl
  omega

theorem toNat_wordXYN (c : Nibble) (x y : RegNum) (n : Nibble) :
    (wordXYN c x y n).toNat = c.toNat * 4096 + x.toNat * 256 + y.toNat * 16 + n.toNat := by
  have h1 := toNat_append_eq c (x ++ (y ++ n))
  have h2 := toNat_append_eq x (y ++ n)
  have h3 := toNat_append_eq y n
  have h4 : (wordXYN c x y n).toNat = (c ++ (x ++ (y ++ n))).toNat := rfl
  omega

/-- The value of a word from its two bytes (20_memory.md R42). -/
theorem toNat_wordOfBytes (hi lo : Byte) : (wordOfBytes hi lo).toNat = hi.toNat * 256 + lo.toNat :=
  toNat_append_eq hi lo

/-! ## Fields of a word as numbers -/

theorem toNat_cls (op : Word) : (Word.cls op).toNat = op.toNat / 4096 := by
  have := op.isLt
  simp only [Word.cls, BitVec.extractLsb'_toNat, Nat.shiftRight_eq_div_pow]; omega

theorem toNat_x (op : Word) : (Word.x op).toNat = op.toNat / 256 % 16 := by
  simp only [Word.x, BitVec.extractLsb'_toNat, Nat.shiftRight_eq_div_pow]

theorem toNat_y (op : Word) : (Word.y op).toNat = op.toNat / 16 % 16 := by
  simp only [Word.y, BitVec.extractLsb'_toNat, Nat.shiftRight_eq_div_pow]

theorem toNat_n (op : Word) : (Word.n op).toNat = op.toNat % 16 := by
  simp only [Word.n, BitVec.extractLsb'_toNat, Nat.shiftRight_eq_div_pow]; omega

theorem toNat_kk (op : Word) : (Word.kk op).toNat = op.toNat % 256 := by
  simp only [Word.kk, BitVec.extractLsb'_toNat, Nat.shiftRight_eq_div_pow]; omega

theorem toNat_nnn (op : Word) : (Word.nnn op).toNat = op.toNat % 4096 := by
  simp only [Word.nnn, BitVec.extractLsb'_toNat, Nat.shiftRight_eq_div_pow]; omega

/-! ## Fields of an encoded word -/

section
variable (c : Nibble) (nnn : Addr) (x y : RegNum) (n : Nibble) (kk : Byte)

@[simp] theorem cls_wordA : Word.cls (wordA c nnn) = c :=
  BitVec.eq_of_toNat_eq (by rw [toNat_cls, toNat_wordA]; omega)

@[simp] theorem nnn_wordA : Word.nnn (wordA c nnn) = nnn :=
  BitVec.eq_of_toNat_eq (by rw [toNat_nnn, toNat_wordA]; omega)

@[simp] theorem cls_wordXK : Word.cls (wordXK c x kk) = c :=
  BitVec.eq_of_toNat_eq (by rw [toNat_cls, toNat_wordXK]; omega)

@[simp] theorem x_wordXK : Word.x (wordXK c x kk) = x :=
  BitVec.eq_of_toNat_eq (by rw [toNat_x, toNat_wordXK]; omega)

@[simp] theorem kk_wordXK : Word.kk (wordXK c x kk) = kk :=
  BitVec.eq_of_toNat_eq (by rw [toNat_kk, toNat_wordXK]; omega)

@[simp] theorem cls_wordXYN : Word.cls (wordXYN c x y n) = c :=
  BitVec.eq_of_toNat_eq (by rw [toNat_cls, toNat_wordXYN]; omega)

@[simp] theorem x_wordXYN : Word.x (wordXYN c x y n) = x :=
  BitVec.eq_of_toNat_eq (by rw [toNat_x, toNat_wordXYN]; omega)

@[simp] theorem y_wordXYN : Word.y (wordXYN c x y n) = y :=
  BitVec.eq_of_toNat_eq (by rw [toNat_y, toNat_wordXYN]; omega)

@[simp] theorem n_wordXYN : Word.n (wordXYN c x y n) = n :=
  BitVec.eq_of_toNat_eq (by rw [toNat_n, toNat_wordXYN]; omega)

end

/-- A word is its two bytes, high byte first (20_memory.md R42). -/
theorem wordOfBytes_bytesOfWord (op : Word) : wordOfBytes (op.extractLsb' 8 8) (op.extractLsb' 0 8) = op :=
  BitVec.eq_of_toNat_eq (by
    have := op.isLt
    simp only [toNat_wordOfBytes, BitVec.extractLsb'_toNat, Nat.shiftRight_eq_div_pow]; omega)

/-! ## The dispatch, class by class (30_encoding.md R64) -/

/-- The class nibble is one of sixteen. -/
theorem cls_cases (c : Nibble) :
    c = 0x0#4 ∨ c = 0x1#4 ∨ c = 0x2#4 ∨ c = 0x3#4 ∨ c = 0x4#4 ∨ c = 0x5#4 ∨ c = 0x6#4 ∨ c = 0x7#4 ∨
    c = 0x8#4 ∨ c = 0x9#4 ∨ c = 0xA#4 ∨ c = 0xB#4 ∨ c = 0xC#4 ∨ c = 0xD#4 ∨ c = 0xE#4 ∨ c = 0xF#4 := by
  revert c; decide

section
variable {op : Word}

theorem decode_class0 (h : Word.cls op = 0x0#4) :
    decode op = .ok (decodeClass0 op) := by
  simp only [decode, h]; rfl

theorem decode_class1 (h : Word.cls op = 0x1#4) :
    decode op = .ok (.jp (Word.nnn op)) := by
  simp only [decode, h]; rfl

theorem decode_class2 (h : Word.cls op = 0x2#4) :
    decode op = .ok (.call (Word.nnn op)) := by
  simp only [decode, h]; rfl

theorem decode_class3 (h : Word.cls op = 0x3#4) :
    decode op = .ok (.seKk (Word.x op) (Word.kk op)) := by
  simp only [decode, h]; rfl

theorem decode_class4 (h : Word.cls op = 0x4#4) :
    decode op = .ok (.sneKk (Word.x op) (Word.kk op)) := by
  simp only [decode, h]; rfl

theorem decode_class5 (h : Word.cls op = 0x5#4) :
    decode op = if Word.n op = 0x0#4 then .ok (.seVy (Word.x op) (Word.y op)) else .error .illegalClass5 := by
  simp only [decode, h]; rfl

theorem decode_class6 (h : Word.cls op = 0x6#4) :
    decode op = .ok (.ld (Word.x op) (Word.kk op)) := by
  simp only [decode, h]; rfl

theorem decode_class7 (h : Word.cls op = 0x7#4) :
    decode op = .ok (.addKk (Word.x op) (Word.kk op)) := by
  simp only [decode, h]; rfl

theorem decode_class8 (h : Word.cls op = 0x8#4) :
    decode op = decodeClass8 op := by
  simp only [decode, h]; rfl

theorem decode_class9 (h : Word.cls op = 0x9#4) :
    decode op = if Word.n op = 0x0#4 then .ok (.sneVy (Word.x op) (Word.y op)) else .error .illegalClass9 := by
  simp only [decode, h]; rfl

theorem decode_classA (h : Word.cls op = 0xA#4) :
    decode op = .ok (.ldi (Word.nnn op)) := by
  simp only [decode, h]; rfl

theorem decode_classB (h : Word.cls op = 0xB#4) :
    decode op = .ok (.jp0 (Word.nnn op)) := by
  simp only [decode, h]; rfl

theorem decode_classC (h : Word.cls op = 0xC#4) :
    decode op = .ok (.rnd (Word.x op) (Word.kk op)) := by
  simp only [decode, h]; rfl

theorem decode_classD (h : Word.cls op = 0xD#4) :
    decode op = .ok (.drw (Word.x op) (Word.y op) (Word.n op)) := by
  simp only [decode, h]; rfl

theorem decode_classE (h : Word.cls op = 0xE#4) :
    decode op = decodeClassE op := by
  simp only [decode, h]; rfl

theorem decode_classF (h : Word.cls op = 0xF#4) :
    decode op = decodeClassF op := by
  simp only [decode, h]; rfl

end

/-! ## A word from its fields -/

theorem wordA_fields (op : Word) : wordA (Word.cls op) (Word.nnn op) = op :=
  BitVec.eq_of_toNat_eq (by rw [toNat_wordA, toNat_cls, toNat_nnn]; omega)

theorem wordXK_fields (op : Word) : wordXK (Word.cls op) (Word.x op) (Word.kk op) = op :=
  BitVec.eq_of_toNat_eq (by rw [toNat_wordXK, toNat_cls, toNat_x, toNat_kk]; omega)

theorem wordXYN_fields (op : Word) : wordXYN (Word.cls op) (Word.x op) (Word.y op) (Word.n op) = op :=
  BitVec.eq_of_toNat_eq (by rw [toNat_wordXYN, toNat_cls, toNat_x, toNat_y, toNat_n]; omega)

end Sys2Proof
end

