-- ==== Sys2Proof/Laws/Memory.lean ====
section
/-! SUPPORT. Main memory: what a read gives after a write, and that every operation keeps the canonical form. -/

namespace Sys2Proof.Machine

namespace Memory

/-! ## Reads after writes -/

theorem read_erase_ne (m : Memory) {a x : Nat} (h : x ≠ a) : (m.erase a).read x = m.read x := by
  induction m with
  | nil => rfl
  | cons p m ih =>
    obtain ⟨k, c⟩ := p
    by_cases hk : k = a
    · have : k ≠ x := by omega
      simp only [erase, List.filter, hk, bne_self_eq_false] at *
      rw [ih, read, if_neg (by omega)]
    · have hb : (k != a) = true := by simpa using hk
      simp only [erase, List.filter, hb] at *
      simp only [read]
      rw [ih]

theorem read_insert (m : Memory) (a x : Nat) (b : Byte) (h : ∀ p ∈ m, p.1 ≠ a) :
    (m.insert a b).read x = if x = a then b else m.read x := by
  induction m with
  | nil => simp only [insert, read]; split <;> split <;> first | rfl | omega
  | cons p m ih =>
    obtain ⟨k, c⟩ := p
    have hk : k ≠ a := h (k, c) (by simp)
    have := ih fun p hp => h p (List.mem_cons_of_mem _ hp)
    simp only [insert]
    split
    · simp only [read]
      by_cases hx : x = a
      · simp [hx]
      · rw [if_neg (by omega), if_neg hx]
    · simp only [read, this]
      by_cases hx : x = a
      · rw [if_neg (by omega), if_pos hx, if_pos hx]
      · rw [if_neg hx, if_neg hx]

theorem mem_erase (m : Memory) (a : Nat) (p : Host.Cell) : p ∈ m.erase a ↔ p ∈ m ∧ p.1 ≠ a := by
  simp [erase, List.mem_filter]

theorem read_of_not_listed (m : Memory) (a : Nat) (h : ∀ p ∈ m, p.1 ≠ a) : m.read a = unlisted a := by
  induction m with
  | nil => rfl
  | cons p m ih =>
    obtain ⟨k, c⟩ := p
    rw [read, if_neg (h (k, c) (by simp)), ih fun p hp => h p (List.mem_cons_of_mem _ hp)]

theorem read_put (m : Memory) (a x : Nat) (b : Byte) : (m.put a b).read x = if x = a then b else m.read x := by
  have hne : ∀ p ∈ m.erase a, p.1 ≠ a := fun p hp => ((mem_erase m a p).1 hp).2
  unfold put
  split
  · rename_i hb
    by_cases hx : x = a
    · subst hx; rw [read_of_not_listed _ _ hne, if_pos rfl, hb]
    · rw [read_erase_ne _ hx, if_neg hx]
  · rw [read_insert _ _ _ _ hne]
    by_cases hx : x = a
    · rw [if_pos hx, if_pos hx]
    · rw [if_neg hx, if_neg hx, read_erase_ne _ hx]

/-- A read after a write gives the byte written, at every other address the byte read before (20_memory.md R50). -/
theorem read_write (m : Memory) (a x : Nat) (b : Byte) :
    (m.write a b).read x = if x = a ∧ a < Config.memSize then b else m.read x := by
  unfold write
  split
  · rename_i h; rw [read_put]; simp [h]
  · rename_i h; simp [h]

theorem read_writeBytes_of_lt (m : Memory) (a x : Nat) (bs : List Byte) (h : x < a) :
    (m.writeBytes a bs).read x = m.read x := by
  induction bs generalizing m a with
  | nil => rfl
  | cons b bs ih => rw [writeBytes, ih _ _ (by omega), read_write, if_neg (by omega)]

/-- Outside the bytes stored, every byte reads as before. -/
theorem read_writeBytes_outside (m : Memory) (a x : Nat) (bs : List Byte) (h : x < a ∨ a + bs.length ≤ x) :
    (m.writeBytes a bs).read x = m.read x := by
  induction bs generalizing m a with
  | nil => rfl
  | cons b bs ih =>
    have : a + (bs.length + 1) ≤ x ∨ x < a := by simpa using h.symm
    rw [writeBytes, ih _ _ (by omega), read_write, if_neg (by omega)]

/-- Byte `k` of the bytes stored reads as stored, when its address exists. -/
theorem read_writeBytes_inside (m : Memory) (a k : Nat) (bs : List Byte) (hk : k < bs.length)
    (hm : a + k < Config.memSize) : (m.writeBytes a bs).read (a + k) = bs[k] := by
  induction bs generalizing m a k with
  | nil => exact absurd hk (by simp)
  | cons b bs ih =>
    cases k with
    | zero => rw [writeBytes, read_writeBytes_of_lt _ _ _ _ (by omega), read_write, if_pos ⟨rfl, hm⟩]; rfl
    | succ k =>
      have := ih (m.write a b) (a + 1) k (by simpa using hk) (by omega)
      rw [writeBytes, show a + (k + 1) = a + 1 + k by omega, this]; rfl

@[simp] theorem readBytes_length (m : Memory) (a n : Nat) : (m.readBytes a n).length = n := by
  induction n generalizing a with
  | zero => rfl
  | succ n ih => simp [readBytes, ih]

/-- Byte `k` of the bytes read is the byte at address `a + k`. -/
theorem getElem_readBytes (m : Memory) (a n k : Nat) (h : k < (m.readBytes a n).length) :
    (m.readBytes a n)[k] = m.read (a + k) := by
  induction n generalizing a k with
  | zero => exact absurd h (by simp)
  | succ n ih =>
    cases k with
    | zero => rfl
    | succ k =>
      have := ih (a + 1) k (by simpa using h)
      simp only [readBytes, List.getElem_cons_succ, this]
      congr 1; omega

/-! ## The canonical form -/

theorem wf_nil : wf [] := ⟨List.Pairwise.nil, by simp⟩

theorem wf_erase {m : Memory} (h : m.wf) (a : Nat) : (m.erase a).wf :=
  ⟨h.1.filter _, fun p hp => h.2 p ((mem_erase m a p).1 hp).1⟩

theorem mem_insert (m : Memory) (a : Nat) (b : Byte) (p : Host.Cell) :
    p ∈ m.insert a b ↔ p = (a, b) ∨ p ∈ m := by
  induction m with
  | nil => simp [insert]
  | cons q m ih =>
    obtain ⟨k, c⟩ := q
    simp only [insert]
    split
    · simp
    · simp only [List.mem_cons, ih]; tauto

theorem pairwise_insert {m : Memory} {a : Nat} (b : Byte) (h : m.Pairwise fun p q => p.1 < q.1)
    (hne : ∀ p ∈ m, p.1 ≠ a) : (m.insert a b).Pairwise fun p q => p.1 < q.1 := by
  induction m with
  | nil => simp [insert]
  | cons q m ih =>
    obtain ⟨k, c⟩ := q
    have hk : k ≠ a := hne (k, c) (by simp)
    rw [List.pairwise_cons] at h
    simp only [insert]
    split
    · rename_i hlt
      refine List.pairwise_cons.2 ⟨fun p hp => ?_, List.pairwise_cons.2 h⟩
      rcases List.mem_cons.1 hp with rfl | hp
      · exact hlt
      · exact Nat.lt_trans hlt (h.1 p hp)
    · refine List.pairwise_cons.2 ⟨fun p hp => ?_, ih h.2 fun p hp => hne p (List.mem_cons_of_mem _ hp)⟩
      rcases (mem_insert m a b p).1 hp with rfl | hp
      · show k < a; omega
      · exact h.1 p hp

theorem wf_put {m : Memory} (h : m.wf) {a : Nat} (ha : a < Config.memSize) (b : Byte) : (m.put a b).wf := by
  unfold put
  split
  · exact wf_erase h a
  · rename_i hb
    have he := wf_erase h a
    refine ⟨pairwise_insert b he.1 fun p hp => ((mem_erase m a p).1 hp).2, fun p hp => ?_⟩
    rcases (mem_insert _ a b p).1 hp with rfl | hp
    · exact ⟨ha, hb⟩
    · exact he.2 p hp

/-- A write keeps the canonical form. -/
theorem wf_write {m : Memory} (h : m.wf) (a : Nat) (b : Byte) : (m.write a b).wf := by
  unfold write
  split
  · rename_i ha; exact wf_put h ha b
  · exact h

/-- A store of several bytes keeps the canonical form. -/
theorem wf_writeBytes {m : Memory} (h : m.wf) (a : Nat) (bs : List Byte) : (m.writeBytes a bs).wf := by
  induction bs generalizing m a with
  | nil => exact h
  | cons b bs ih => exact ih (wf_write h a b) (a + 1)

/-! ## The freshly loaded memory -/

theorem image_fst_le (a : Nat) (bs : List Byte) (p : Host.Cell) (h : p ∈ image a bs) :
    a ≤ p.1 ∧ p.1 < a + bs.length ∧ p.2 ≠ unlisted p.1 := by
  induction bs generalizing a with
  | nil => simp [image] at h
  | cons b bs ih =>
    simp only [image] at h
    simp only [List.length_cons]
    split at h
    · have := ih _ h; exact ⟨by omega, by omega, this.2.2⟩
    · rename_i hb
      rcases List.mem_cons.1 h with rfl | h
      · exact ⟨Nat.le_refl _, by show a < _; omega, hb⟩
      · have := ih _ h; exact ⟨by omega, by omega, this.2.2⟩

/-- The image of bytes that fit in memory is in canonical form. -/
theorem wf_image (a : Nat) (bs : List Byte) (h : a + bs.length ≤ Config.memSize) : (image a bs).wf := by
  refine ⟨?_, fun p hp => ⟨Nat.lt_of_lt_of_le (image_fst_le a bs p hp).2.1 h, (image_fst_le a bs p hp).2.2⟩⟩
  clear h
  induction bs generalizing a with
  | nil => exact List.Pairwise.nil
  | cons b bs ih =>
    simp only [image]
    split
    · exact ih _
    · exact List.pairwise_cons.2 ⟨fun p hp => by have := image_fst_le _ _ p hp; show a < p.1; omega, ih _⟩

theorem read_image_outside (a x : Nat) (bs : List Byte) (h : x < a ∨ a + bs.length ≤ x) :
    (image a bs).read x = unlisted x :=
  read_of_not_listed _ _ fun p hp => by have := image_fst_le a bs p hp; omega

theorem read_image_inside (a k : Nat) (bs : List Byte) (hk : k < bs.length) :
    (image a bs).read (a + k) = bs[k] := by
  induction bs generalizing a k with
  | nil => exact absurd hk (by simp)
  | cons b bs ih =>
    simp only [image]
    cases k with
    | zero =>
      split
      · rename_i hb; rw [read_image_outside _ _ _ (by omega)]; simpa using hb.symm
      · simp [read]
    | succ k =>
      have hk' : k < bs.length := by simpa using hk
      have := ih (a + 1) k hk'
      rw [show a + 1 + k = a + (k + 1) by omega] at this
      split
      · simpa using this
      · rw [read, if_neg (by omega)]; simpa using this

theorem unlisted_of_lt {a : Nat} (h : a < 0x050) : unlisted a = 0 := by
  unfold unlisted; rw [if_neg (by simp only [Config.fontBase]; omega)]

theorem unlisted_of_ge {a : Nat} (h : 0x0A0 ≤ a) : unlisted a = 0 := by
  unfold unlisted
  rw [if_pos (by simp only [Config.fontBase]; omega), List.getD_eq_getElem?_getD,
    List.getElem?_eq_none (by show 80 ≤ a - 0x050; omega)]
  rfl

end Memory

end Sys2Proof.Machine
end

