-- ==== Sys2Proof/Laws/State.lean ====
section
/-! SUPPORT. What each named update of the state does to each field, so that no later proof unfolds one. -/

namespace Sys2Proof.Machine

namespace State

variable (s : State)

@[simp] theorem setReg_v (r : RegNum) (b : Byte) : (s.setReg r b).v = s.v.set r.toNat b r.isLt := rfl
@[simp] theorem setReg_i (r : RegNum) (b : Byte) : (s.setReg r b).i = s.i := rfl
@[simp] theorem setReg_pc (r : RegNum) (b : Byte) : (s.setReg r b).pc = s.pc := rfl
@[simp] theorem setReg_stack (r : RegNum) (b : Byte) : (s.setReg r b).stack = s.stack := rfl
@[simp] theorem setReg_sp (r : RegNum) (b : Byte) : (s.setReg r b).sp = s.sp := rfl
@[simp] theorem setReg_dt (r : RegNum) (b : Byte) : (s.setReg r b).dt = s.dt := rfl
@[simp] theorem setReg_st (r : RegNum) (b : Byte) : (s.setReg r b).st = s.st := rfl
@[simp] theorem setReg_keys (r : RegNum) (b : Byte) : (s.setReg r b).keys = s.keys := rfl
@[simp] theorem setReg_fb (r : RegNum) (b : Byte) : (s.setReg r b).fb = s.fb := rfl
@[simp] theorem setReg_mem (r : RegNum) (b : Byte) : (s.setReg r b).mem = s.mem := rfl
@[simp] theorem setReg_draws (r : RegNum) (b : Byte) : (s.setReg r b).draws = s.draws := rfl

/-! `setRandom` is a write of Vx. -/

@[simp] theorem setRandom_v (x : RegNum) (kk rnd : Byte) : (s.setRandom x kk rnd).v = s.v.set x.toNat (rnd &&& kk) x.isLt := rfl
@[simp] theorem setRandom_i (x : RegNum) (kk rnd : Byte) : (s.setRandom x kk rnd).i = s.i := rfl
@[simp] theorem setRandom_pc (x : RegNum) (kk rnd : Byte) : (s.setRandom x kk rnd).pc = s.pc := rfl
@[simp] theorem setRandom_stack (x : RegNum) (kk rnd : Byte) : (s.setRandom x kk rnd).stack = s.stack := rfl
@[simp] theorem setRandom_sp (x : RegNum) (kk rnd : Byte) : (s.setRandom x kk rnd).sp = s.sp := rfl
@[simp] theorem setRandom_dt (x : RegNum) (kk rnd : Byte) : (s.setRandom x kk rnd).dt = s.dt := rfl
@[simp] theorem setRandom_st (x : RegNum) (kk rnd : Byte) : (s.setRandom x kk rnd).st = s.st := rfl
@[simp] theorem setRandom_keys (x : RegNum) (kk rnd : Byte) : (s.setRandom x kk rnd).keys = s.keys := rfl
@[simp] theorem setRandom_fb (x : RegNum) (kk rnd : Byte) : (s.setRandom x kk rnd).fb = s.fb := rfl
@[simp] theorem setRandom_mem (x : RegNum) (kk rnd : Byte) : (s.setRandom x kk rnd).mem = s.mem := rfl
@[simp] theorem setRandom_draws (x : RegNum) (kk rnd : Byte) : (s.setRandom x kk rnd).draws = s.draws := rfl

@[simp] theorem advance_v : s.advance.v = s.v := rfl
@[simp] theorem advance_i : s.advance.i = s.i := rfl
@[simp] theorem advance_pc : s.advance.pc = s.pc + 2 := rfl
@[simp] theorem advance_stack : s.advance.stack = s.stack := rfl
@[simp] theorem advance_sp : s.advance.sp = s.sp := rfl
@[simp] theorem advance_dt : s.advance.dt = s.dt := rfl
@[simp] theorem advance_st : s.advance.st = s.st := rfl
@[simp] theorem advance_keys : s.advance.keys = s.keys := rfl
@[simp] theorem advance_fb : s.advance.fb = s.fb := rfl
@[simp] theorem advance_mem : s.advance.mem = s.mem := rfl
@[simp] theorem advance_draws : s.advance.draws = s.draws := rfl

@[simp] theorem jump_v (w : Word) : (s.jump w).v = s.v := rfl
@[simp] theorem jump_i (w : Word) : (s.jump w).i = s.i := rfl
@[simp] theorem jump_pc (w : Word) : (s.jump w).pc = w := rfl
@[simp] theorem jump_stack (w : Word) : (s.jump w).stack = s.stack := rfl
@[simp] theorem jump_sp (w : Word) : (s.jump w).sp = s.sp := rfl
@[simp] theorem jump_dt (w : Word) : (s.jump w).dt = s.dt := rfl
@[simp] theorem jump_st (w : Word) : (s.jump w).st = s.st := rfl
@[simp] theorem jump_keys (w : Word) : (s.jump w).keys = s.keys := rfl
@[simp] theorem jump_fb (w : Word) : (s.jump w).fb = s.fb := rfl
@[simp] theorem jump_mem (w : Word) : (s.jump w).mem = s.mem := rfl
@[simp] theorem jump_draws (w : Word) : (s.jump w).draws = s.draws := rfl

@[simp] theorem retreat_v : s.retreat.v = s.v := rfl
@[simp] theorem retreat_i : s.retreat.i = s.i := rfl
@[simp] theorem retreat_pc : s.retreat.pc = s.pc - 2 := rfl
@[simp] theorem retreat_stack : s.retreat.stack = s.stack := rfl
@[simp] theorem retreat_sp : s.retreat.sp = s.sp := rfl
@[simp] theorem retreat_dt : s.retreat.dt = s.dt := rfl
@[simp] theorem retreat_st : s.retreat.st = s.st := rfl
@[simp] theorem retreat_keys : s.retreat.keys = s.keys := rfl
@[simp] theorem retreat_fb : s.retreat.fb = s.fb := rfl
@[simp] theorem retreat_mem : s.retreat.mem = s.mem := rfl
@[simp] theorem retreat_draws : s.retreat.draws = s.draws := rfl

@[simp] theorem placeWord_v (op : Word) : (s.placeWord op).v = s.v := rfl
@[simp] theorem placeWord_i (op : Word) : (s.placeWord op).i = s.i := rfl
@[simp] theorem placeWord_pc (op : Word) : (s.placeWord op).pc = s.pc := rfl
@[simp] theorem placeWord_stack (op : Word) : (s.placeWord op).stack = s.stack := rfl
@[simp] theorem placeWord_sp (op : Word) : (s.placeWord op).sp = s.sp := rfl
@[simp] theorem placeWord_dt (op : Word) : (s.placeWord op).dt = s.dt := rfl
@[simp] theorem placeWord_st (op : Word) : (s.placeWord op).st = s.st := rfl
@[simp] theorem placeWord_keys (op : Word) : (s.placeWord op).keys = s.keys := rfl
@[simp] theorem placeWord_fb (op : Word) : (s.placeWord op).fb = s.fb := rfl
@[simp] theorem placeWord_mem (op : Word) : (s.placeWord op).mem = s.mem.writeBytes s.pc.toNat (bytesOfWord op) := rfl
@[simp] theorem placeWord_draws (op : Word) : (s.placeWord op).draws = s.draws := rfl

@[simp] theorem decrementTimers_v : s.decrementTimers.v = s.v := rfl
@[simp] theorem decrementTimers_i : s.decrementTimers.i = s.i := rfl
@[simp] theorem decrementTimers_pc : s.decrementTimers.pc = s.pc := rfl
@[simp] theorem decrementTimers_stack : s.decrementTimers.stack = s.stack := rfl
@[simp] theorem decrementTimers_sp : s.decrementTimers.sp = s.sp := rfl
@[simp] theorem decrementTimers_dt : s.decrementTimers.dt = countDown s.dt := rfl
@[simp] theorem decrementTimers_st : s.decrementTimers.st = countDown s.st := rfl
@[simp] theorem decrementTimers_keys : s.decrementTimers.keys = s.keys := rfl
@[simp] theorem decrementTimers_fb : s.decrementTimers.fb = s.fb := rfl
@[simp] theorem decrementTimers_mem : s.decrementTimers.mem = s.mem := rfl
@[simp] theorem decrementTimers_draws : s.decrementTimers.draws = s.draws := rfl

@[simp] theorem setKeys_v (k : Vector Bool 16) : (s.setKeys k).v = s.v := rfl
@[simp] theorem setKeys_i (k : Vector Bool 16) : (s.setKeys k).i = s.i := rfl
@[simp] theorem setKeys_pc (k : Vector Bool 16) : (s.setKeys k).pc = s.pc := rfl
@[simp] theorem setKeys_stack (k : Vector Bool 16) : (s.setKeys k).stack = s.stack := rfl
@[simp] theorem setKeys_sp (k : Vector Bool 16) : (s.setKeys k).sp = s.sp := rfl
@[simp] theorem setKeys_dt (k : Vector Bool 16) : (s.setKeys k).dt = s.dt := rfl
@[simp] theorem setKeys_st (k : Vector Bool 16) : (s.setKeys k).st = s.st := rfl
@[simp] theorem setKeys_keys (k : Vector Bool 16) : (s.setKeys k).keys = k := rfl
@[simp] theorem setKeys_fb (k : Vector Bool 16) : (s.setKeys k).fb = s.fb := rfl
@[simp] theorem setKeys_mem (k : Vector Bool 16) : (s.setKeys k).mem = s.mem := rfl
@[simp] theorem setKeys_draws (k : Vector Bool 16) : (s.setKeys k).draws = s.draws := rfl

/-! `draw` touches the environment's place only. -/

@[simp] theorem draw_v : s.draw.2.v = s.v := rfl
@[simp] theorem draw_i : s.draw.2.i = s.i := rfl
@[simp] theorem draw_pc : s.draw.2.pc = s.pc := rfl
@[simp] theorem draw_stack : s.draw.2.stack = s.stack := rfl
@[simp] theorem draw_sp : s.draw.2.sp = s.sp := rfl
@[simp] theorem draw_dt : s.draw.2.dt = s.dt := rfl
@[simp] theorem draw_st : s.draw.2.st = s.st := rfl
@[simp] theorem draw_keys : s.draw.2.keys = s.keys := rfl
@[simp] theorem draw_fb : s.draw.2.fb = s.fb := rfl
@[simp] theorem draw_mem : s.draw.2.mem = s.mem := rfl
@[simp] theorem draw_draws : s.draw.2.draws = s.draws + 1 := rfl

/-! `skipIf` touches the PC only. -/

@[simp] theorem skipIf_v (c : Bool) : (s.skipIf c).v = s.v := by
  cases c <;> rfl
@[simp] theorem skipIf_i (c : Bool) : (s.skipIf c).i = s.i := by
  cases c <;> rfl
theorem skipIf_pc (c : Bool) : (s.skipIf c).pc = if c then s.pc + 2 else s.pc := by
  cases c <;> rfl
@[simp] theorem skipIf_stack (c : Bool) : (s.skipIf c).stack = s.stack := by
  cases c <;> rfl
@[simp] theorem skipIf_sp (c : Bool) : (s.skipIf c).sp = s.sp := by
  cases c <;> rfl
@[simp] theorem skipIf_dt (c : Bool) : (s.skipIf c).dt = s.dt := by
  cases c <;> rfl
@[simp] theorem skipIf_st (c : Bool) : (s.skipIf c).st = s.st := by
  cases c <;> rfl
@[simp] theorem skipIf_keys (c : Bool) : (s.skipIf c).keys = s.keys := by
  cases c <;> rfl
@[simp] theorem skipIf_fb (c : Bool) : (s.skipIf c).fb = s.fb := by
  cases c <;> rfl
@[simp] theorem skipIf_mem (c : Bool) : (s.skipIf c).mem = s.mem := by
  cases c <;> rfl
@[simp] theorem skipIf_draws (c : Bool) : (s.skipIf c).draws = s.draws := by
  cases c <;> rfl

/-! `setFlagThenReg` touches the general registers only. -/

@[simp] theorem setFlagThenReg_i (x : RegNum) (a b : Byte) : (s.setFlagThenReg x a b).i = s.i := rfl
@[simp] theorem setFlagThenReg_pc (x : RegNum) (a b : Byte) : (s.setFlagThenReg x a b).pc = s.pc := rfl
@[simp] theorem setFlagThenReg_stack (x : RegNum) (a b : Byte) : (s.setFlagThenReg x a b).stack = s.stack := rfl
@[simp] theorem setFlagThenReg_sp (x : RegNum) (a b : Byte) : (s.setFlagThenReg x a b).sp = s.sp := rfl
@[simp] theorem setFlagThenReg_dt (x : RegNum) (a b : Byte) : (s.setFlagThenReg x a b).dt = s.dt := rfl
@[simp] theorem setFlagThenReg_st (x : RegNum) (a b : Byte) : (s.setFlagThenReg x a b).st = s.st := rfl
@[simp] theorem setFlagThenReg_keys (x : RegNum) (a b : Byte) : (s.setFlagThenReg x a b).keys = s.keys := rfl
@[simp] theorem setFlagThenReg_fb (x : RegNum) (a b : Byte) : (s.setFlagThenReg x a b).fb = s.fb := rfl
@[simp] theorem setFlagThenReg_mem (x : RegNum) (a b : Byte) : (s.setFlagThenReg x a b).mem = s.mem := rfl
@[simp] theorem setFlagThenReg_draws (x : RegNum) (a b : Byte) : (s.setFlagThenReg x a b).draws = s.draws := rfl

end State

end Sys2Proof.Machine
end

