-- ==== Sys2Proof/Laws/Ops.lean ====
section
/-! SUPPORT. What each shared operation over registers, stack, memory and keys can do, said once. -/

namespace Sys2Proof.Machine

namespace State

variable (s : State)

/-! ## General registers -/

theorem reg_eq (s t : State) (h : t.v = s.v) (r : RegNum) : t.reg r = s.reg r := by
  unfold reg; simp only [h]

/-- A read after a write of a register. -/
@[simp] theorem reg_setReg (x r : RegNum) (b : Byte) : (s.setReg x b).reg r = if r = x then b else s.reg r := by
  simp only [reg, setReg_v, Vector.getElem_set, ← BitVec.toNat_inj, eq_comm (a := r.toNat)]

/-- A read after the two writes of a flag-defining instruction (40_step_cycle.md R86): the result wins in VF. -/
theorem reg_setFlagThenReg (x r : RegNum) (flag result : Byte) :
    (s.setFlagThenReg x flag result).reg r = if r = x then result else if r = vf then flag else s.reg r := by
  simp only [setFlagThenReg, reg_setReg]

@[simp] theorem reg_advance (r : RegNum) : s.advance.reg r = s.reg r := rfl
@[simp] theorem reg_jump (w : Word) (r : RegNum) : (s.jump w).reg r = s.reg r := rfl
@[simp] theorem reg_setRandom (x r : RegNum) (kk rnd : Byte) :
    (s.setRandom x kk rnd).reg r = if r = x then rnd &&& kk else s.reg r := reg_setReg s x r (rnd &&& kk)
@[simp] theorem reg_draw (r : RegNum) : s.draw.2.reg r = s.reg r := rfl
@[simp] theorem reg_retreat (r : RegNum) : s.retreat.reg r = s.reg r := rfl
@[simp] theorem reg_skipIf (c : Bool) (r : RegNum) : (s.skipIf c).reg r = s.reg r := reg_eq _ _ (skipIf_v s c) r
@[simp] theorem reg_decrementTimers (r : RegNum) : s.decrementTimers.reg r = s.reg r := rfl
@[simp] theorem reg_setKeys (k : Vector Bool 16) (r : RegNum) : (s.setKeys k).reg r = s.reg r := rfl

/-- The registers are equal exactly when every register reads the same. -/
theorem v_ext {s t : State} (h : ∀ r, s.reg r = t.reg r) : s.v = t.v := by
  apply Vector.ext
  intro k hk
  have := h (BitVec.ofNat 4 k)
  simpa [reg, Nat.mod_eq_of_lt hk] using this

/-! ## Call stack -/

/-- A push happens exactly when fewer than 16 addresses are held, and then does this. -/
theorem push_eq_some {w : Word} {t : State} (h : s.push w = some t) :
    ∃ hs : s.sp.val < 16, t = { s with stack := s.stack.set s.sp.val w hs, sp := ⟨s.sp.val + 1, by omega⟩ } := by
  unfold push at h
  split at h
  · rename_i hs; exact ⟨hs, (Option.some.inj h).symm⟩
  · cases h

theorem push_eq_none (w : Word) : s.push w = none ↔ s.sp.val = 16 := by
  unfold push
  split
  · simp; omega
  · simp; omega

/-- A pop happens exactly when an address is held, and then does this. -/
theorem pop_eq_some {w : Word} {t : State} (h : s.pop = some (w, t)) :
    ∃ _ : 0 < s.sp.val, w = s.stack[s.sp.val - 1]'(by omega) ∧ t = { s with sp := ⟨s.sp.val - 1, by omega⟩ } := by
  unfold pop at h
  split at h
  · rename_i hs
    have h := Option.some.inj h
    exact ⟨hs, (congrArg Prod.fst h).symm, (congrArg Prod.snd h).symm⟩
  · cases h

theorem pop_eq_none : s.pop = none ↔ s.sp.val = 0 := by
  unfold pop
  split
  · simp; omega
  · simp; omega

/-! ## Stores and loads -/

/-- A checked store answers a next state exactly when its whole range is in memory. -/
theorem storeBytes_of_inMemory {a : Nat} {bs : List Byte} (h : InMemory a bs.length) :
    s.storeBytes a bs = .next { s with mem := s.mem.writeBytes a bs } := if_pos h

theorem storeBytes_of_not_inMemory {a : Nat} {bs : List Byte} (h : ¬ InMemory a bs.length) :
    s.storeBytes a bs = .fault .addressOutOfRange := if_neg h

/-- A checked load answers a next state exactly when its whole range is in memory. -/
theorem loadRegs_of_inMemory {a n : Nat} (h : InMemory a n) :
    s.loadRegs a n = .next { s with v := setRegsFrom s.v 0 (s.mem.readBytes a n) } := if_pos h

theorem loadRegs_of_not_inMemory {a n : Nat} (h : ¬ InMemory a n) :
    s.loadRegs a n = .fault .addressOutOfRange := if_neg h

@[simp] theorem regsUpTo_length (x : RegNum) : (s.regsUpTo x).length = x.toNat + 1 := by
  have := x.isLt
  simp only [regsUpTo, List.length_take, Vector.length_toList]
  omega

/-- Byte `k` of V0 to Vx is register `k`. -/
theorem getElem_regsUpTo (x r : RegNum) (h : r.toNat < (s.regsUpTo x).length) :
    (s.regsUpTo x)[r.toNat] = s.reg r := by
  simp only [regsUpTo, List.getElem_take, Vector.getElem_toList, reg]

/-! ## Fetch -/

theorem fetch_eq_none : s.fetch = none ↔ s.pc.toNat + 1 > 0xFFF := by
  unfold fetch InMemory
  split <;> simp <;> omega

/-- What a fetch reads, when it reads (20_memory.md R42). -/
theorem fetch_eq_some (h : s.pc.toNat + 1 ≤ 0xFFF) :
    s.fetch = some (wordOfBytes (s.byte s.pc.toNat) (s.byte (s.pc.toNat + 1))) := by
  unfold fetch
  rw [if_pos (Or.inr (by omega))]

/-! ## Keys -/

/-- `lowestKey` is none exactly when no key is down. -/
theorem lowestKey_eq_none : s.lowestKey = none ↔ ∀ k : Fin 16, s.keys[k] = false := by
  simp [lowestKey, List.find?_eq_none]

end State

/-! ## Loading registers in order -/

/-- Register `j` after V`k`, V`k+1`, ... have been set to the given bytes. -/
theorem getElem_setRegsFrom (v : Vector Byte 16) (k : Nat) (bs : List Byte) (j : Nat) (hj : j < 16) :
    (setRegsFrom v k bs)[j] = if h : k ≤ j ∧ j - k < bs.length then bs[j - k]'h.2 else v[j] := by
  induction bs generalizing v k with
  | nil => simp [setRegsFrom]
  | cons b bs ih =>
    rw [setRegsFrom, ih]
    by_cases h1 : k = j
    · subst h1
      rw [dif_neg (by omega), dif_pos (by simp), Vector.getElem_setIfInBounds_self]
      simp
    · by_cases h2 : k + 1 ≤ j ∧ j - (k + 1) < bs.length
      · rw [dif_pos h2, dif_pos ⟨by omega, by simp only [List.length_cons]; omega⟩]
        have : j - k = (j - (k + 1)) + 1 := by omega
        simp only [this, List.getElem_cons_succ]
      · rw [dif_neg h2, dif_neg (by simp only [List.length_cons]; omega), Vector.getElem_setIfInBounds_ne hj]
        exact h1

/-! ## Steps, results and the order of keys -/

theorem lowestKey_some_aux (p : Fin 16 → Bool) (l : List (Fin 16)) (hl : l.Pairwise (· < ·)) {k : Fin 16}
    (h : l.find? p = some k) : p k = true ∧ ∀ j ∈ l, j < k → p j = false := by
  induction l with
  | nil => cases h
  | cons a l ih =>
    rw [List.pairwise_cons] at hl
    rw [List.find?_cons] at h
    split at h
    · cases h
      refine ⟨‹_›, fun j hj hlt => ?_⟩
      rcases List.mem_cons.1 hj with rfl | hj
      · exact absurd hlt (lt_irrefl _)
      · exact absurd (hl.1 j hj) (lt_asymm hlt)
    · obtain ⟨h1, h2⟩ := ih hl.2 h
      refine ⟨h1, fun j hj hlt => ?_⟩
      rcases List.mem_cons.1 hj with rfl | hj
      · simpa using ‹_›
      · exact h2 j hj hlt

/-- `lowestKey` is a key that is down, and every smaller one is up (45_keys_timers.md R162). -/
theorem State.lowestKey_eq_some {s : State} {k : Fin 16} (h : s.lowestKey = some k) :
    s.keys[k] = true ∧ ∀ j : Fin 16, j < k → s.keys[j] = false := by
  have := lowestKey_some_aux (fun k => s.keys[k]) _ (List.pairwise_lt_finRange 16) h
  exact ⟨this.1, fun j hj => this.2 j (List.mem_finRange j) hj⟩

/-- A step when the fetch is in range, whatever runs the decoded instruction (40_step_cycle.md R80). -/
theorem State.stepBy_of_fetch {s : State} {op : Word} (run : Instr → State → Result) (h : s.fetch = some op) :
    s.stepBy run = match decode op with
      | .error _ => .fault .illegalOpcode
      | .ok i => run i s.advance := by
  unfold stepBy; rw [h]; rfl

/-- A step when the fetch is out of range (20_memory.md R44). -/
theorem State.stepBy_of_no_fetch {s : State} (run : Instr → State → Result) (h : s.fetch = none) :
    s.stepBy run = .fault .addressOutOfRange := by
  unfold stepBy; rw [h]; rfl

/-- Every instruction but RND ignores the random byte of the step (10_state.md R31). -/
theorem execOn_of_ne_rnd (rnd : Byte) (i : Instr) (s : State) (h : ∀ x kk, i ≠ .rnd x kk) : execOn rnd i s = exec i s := by
  cases i with
  | rnd x kk => exact absurd rfl (h x kk)
  | _ => rfl

@[simp] theorem State.commit_next (s t : State) : s.commit (.next t) = (.ok, t) := rfl
@[simp] theorem State.commit_fault (s : State) (f : Fault) : s.commit (.fault f) = (.fault f, s) := rfl
@[simp] theorem State.commit_refused (s : State) (r : Refusal) : s.commit (.refused r) = (.refused r, s) := rfl

/-- `step` when the fetch is in range: decode the word at the PC and, when it is an instruction, execute it with the PC
advanced (40_step_cycle.md R80). -/
theorem step_of_fetch {s : State} {op : Word} (h : s.fetch = some op) :
    step s = match decode op with
      | .error _ => .fault .illegalOpcode
      | .ok i => exec i s.advance := s.stepBy_of_fetch exec h

/-- Everything a completed step can have been. -/
theorem step_eq_next {s t : State} (h : step s = .next t) :
    ∃ op i, s.fetch = some op ∧ decode op = .ok i ∧ exec i s.advance = .next t := by
  cases hf : s.fetch with
  | none => rw [step, s.stepBy_of_no_fetch exec hf] at h; cases h
  | some op =>
    rw [step_of_fetch hf] at h
    split at h
    · cases h
    · rename_i i hd; exact ⟨op, i, rfl, hd, h⟩

end Sys2Proof.Machine
end

