-- ==== Sys2Proof/Laws/Display.lean ====
section
/-! SUPPORT. The sprite blitter, said once in closed form (44_display.md R152 (a)): which pixels a blit changes, and when
it collides. -/

namespace Sys2Proof.Machine

namespace Framebuffer

/-- A toggle inverts its own pixel and leaves every other alone. -/
theorem pixel_toggle (fb : Framebuffer) (px py qx qy : Nat) :
    (fb.toggle px py).pixel qx qy =
      if px % 64 = qx % 64 ∧ py % 32 = qy % 32 then !(fb.pixel px py) else fb.pixel qx qy := by
  by_cases hy : py % 32 = qy % 32
  · by_cases hx : px % 64 = qx % 64
    · simp [pixel, toggle, hx, hy]
    · simp [pixel, toggle, hx, hy]
  · simp [pixel, toggle, hy]

@[simp] theorem pixel_clear (px py : Nat) : clear.pixel px py = false := by
  simp [pixel, clear]

/-- Two framebuffers with the same pixels are equal. -/
theorem ext_pixel {f g : Framebuffer} (h : ∀ (px : Fin 64) (py : Fin 32), f.pixel px.val py.val = g.pixel px.val py.val) :
    f = g := by
  apply Vector.ext; intro y hy
  apply Vector.ext; intro x hx
  have := h ⟨x, hx⟩ ⟨y, hy⟩
  simpa [pixel, Nat.mod_eq_of_lt hx, Nat.mod_eq_of_lt hy] using this

theorem pixel_mod (fb : Framebuffer) (px py : Nat) : fb.pixel (px % 64) (py % 32) = fb.pixel px py := by
  simp [pixel]

end Framebuffer

/-- Column `qx` lies under one of the first `n` set bits of a sprite row drawn at column `x0`. -/
def CoveredInRow (row : Byte) (x0 n qx : Nat) : Prop :=
  ∃ c, c < n ∧ row.getLsbD (7 - c) = true ∧ (x0 + c) % 64 = qx % 64

theorem coveredInRow_succ (row : Byte) (x0 n qx : Nat) :
    CoveredInRow row x0 (n + 1) qx ↔
      CoveredInRow row x0 n qx ∨ (row.getLsbD (7 - n) = true ∧ (x0 + n) % 64 = qx % 64) := by
  constructor
  · rintro ⟨c, hc, hb, hx⟩
    by_cases h : c = n
    · subst h; exact Or.inr ⟨hb, hx⟩
    · exact Or.inl ⟨c, by omega, hb, hx⟩
  · rintro (⟨c, hc, hb, hx⟩ | ⟨hb, hx⟩)
    · exact ⟨c, by omega, hb, hx⟩
    · exact ⟨n, by omega, hb, hx⟩

/-- The pixels after one sprite row: exactly those under a set bit are inverted. -/
theorem blitRow_pixel (row : Byte) (x0 y n : Nat) (hn : n ≤ 8) (p : Framebuffer × Bool) (qx qy : Nat) :
    (y % 32 = qy % 32 ∧ CoveredInRow row x0 n qx → (blitRow row x0 y n p).1.pixel qx qy = !(p.1.pixel qx qy)) ∧
    (¬ (y % 32 = qy % 32 ∧ CoveredInRow row x0 n qx) → (blitRow row x0 y n p).1.pixel qx qy = p.1.pixel qx qy) := by
  induction n generalizing qx qy with
  | zero => exact ⟨fun ⟨_, _, h, _⟩ => absurd h (by omega), fun _ => rfl⟩
  | succ n ih =>
    obtain ⟨ih1, ih2⟩ := ih (by omega) qx qy
    simp only [blitRow, coveredInRow_succ]
    split
    · rename_i hb
      simp only [blitPixel, Framebuffer.pixel_toggle]
      by_cases hq : (x0 + n) % 64 = qx % 64 ∧ y % 32 = qy % 32
      · have hnot : ¬ CoveredInRow row x0 n qx := by
          rintro ⟨c, hc, _, hx⟩; omega
        rw [if_pos hq]
        refine ⟨fun _ => ?_, fun h => absurd ⟨hq.2, Or.inr ⟨hb, hq.1⟩⟩ h⟩
        have : (blitRow row x0 y n p).1.pixel (x0 + n) y = (blitRow row x0 y n p).1.pixel qx qy := by
          rw [← Framebuffer.pixel_mod, hq.1, hq.2, Framebuffer.pixel_mod]
        rw [this, ih2 fun h => hnot h.2]
      · rw [if_neg hq]
        constructor
        · rintro ⟨hy, h | h⟩
          · exact ih1 ⟨hy, h⟩
          · exact absurd ⟨h.2, hy⟩ hq
        · intro h
          exact ih2 fun h' => h ⟨h'.1, Or.inl h'.2⟩
    · rename_i hb
      exact ⟨fun ⟨hy, h⟩ => ih1 ⟨hy, h.resolve_right fun h => hb h.1⟩, fun h => ih2 fun h' => h ⟨h'.1, Or.inl h'.2⟩⟩

/-- One sprite row collides exactly when a pixel under a set bit was on. -/
theorem blitRow_hit (row : Byte) (x0 y n : Nat) (hn : n ≤ 8) (p : Framebuffer × Bool) :
    (blitRow row x0 y n p).2 = true ↔
      p.2 = true ∨ ∃ c, c < n ∧ row.getLsbD (7 - c) = true ∧ p.1.pixel (x0 + c) y = true := by
  induction n with
  | zero => simp [blitRow]
  | succ n ih =>
    have hstep : (∃ c, c < n + 1 ∧ row.getLsbD (7 - c) = true ∧ p.1.pixel (x0 + c) y = true) ↔
        (∃ c, c < n ∧ row.getLsbD (7 - c) = true ∧ p.1.pixel (x0 + c) y = true) ∨
          (row.getLsbD (7 - n) = true ∧ p.1.pixel (x0 + n) y = true) := by
      constructor
      · rintro ⟨c, hc, h⟩
        by_cases h' : c = n
        · subst h'; exact Or.inr h
        · exact Or.inl ⟨c, by omega, h⟩
      · rintro (⟨c, hc, h⟩ | h)
        · exact ⟨c, by omega, h⟩
        · exact ⟨n, by omega, h⟩
    rw [hstep]
    simp only [blitRow]
    split
    · rename_i hb
      have hp : (blitRow row x0 y n p).1.pixel (x0 + n) y = p.1.pixel (x0 + n) y :=
        (blitRow_pixel row x0 y n (by omega) p (x0 + n) y).2 (by rintro ⟨_, c, hc, _, hx⟩; omega)
      simp only [blitPixel, Bool.or_eq_true, hp, ih (by omega), hb, true_and, or_assoc]
    · rename_i hb
      rw [ih (by omega)]
      simp [hb]

/-- Pixel (`px`, `py`) lies under a set bit of a sprite with the given rows, drawn at column `x0`, row `y0`. -/
def CoveredRows (rows : List Byte) (x0 y0 px py : Nat) : Prop :=
  ∃ r c : Nat, ∃ h : r < rows.length, c < 8 ∧ rows[r].getLsbD (7 - c) = true ∧
    (x0 + c) % 64 = px ∧ (y0 + r) % 32 = py

/-- The first row of a sprite and the rest of it. -/
theorem coveredRows_cons (row : Byte) (rows : List Byte) (x0 y0 px py : Nat) :
    CoveredRows (row :: rows) x0 y0 (px % 64) (py % 32) ↔
      (y0 % 32 = py % 32 ∧ CoveredInRow row x0 8 px) ∨ CoveredRows rows x0 (y0 + 1) (px % 64) (py % 32) := by
  constructor
  · rintro ⟨r, c, h, hc, hb, hx, hy⟩
    cases r with
    | zero => exact Or.inl ⟨hy, c, hc, hb, hx⟩
    | succ r =>
      refine Or.inr ⟨r, c, by simpa using h, hc, hb, hx, ?_⟩
      rw [← hy]; congr 1; omega
  · rintro (⟨hy, c, hc, hb, hx⟩ | ⟨r, c, h, hc, hb, hx, hy⟩)
    · exact ⟨0, c, by simp, hc, hb, hx, hy⟩
    · refine ⟨r + 1, c, by simpa using h, hc, hb, hx, ?_⟩
      rw [← hy]; congr 1; omega

/-- The pixels after a sprite of at most 32 rows: exactly those under a set bit are inverted (44_display.md R151). -/
theorem blitRows_pixel (x0 y0 : Nat) (rows : List Byte) (p : Framebuffer × Bool) (hn : rows.length ≤ 32) (qx qy : Nat) :
    (CoveredRows rows x0 y0 (qx % 64) (qy % 32) → (blitRows x0 y0 rows p).1.pixel qx qy = !(p.1.pixel qx qy)) ∧
    (¬ CoveredRows rows x0 y0 (qx % 64) (qy % 32) → (blitRows x0 y0 rows p).1.pixel qx qy = p.1.pixel qx qy) := by
  induction rows generalizing y0 p with
  | nil => exact ⟨fun ⟨r, _, h, _⟩ => absurd h (by simp), fun _ => rfl⟩
  | cons row rows ih =>
    have hlen : rows.length + 1 ≤ 32 := by simpa using hn
    obtain ⟨ih1, ih2⟩ := ih (y0 + 1) (blitRow row x0 y0 8 p) (by omega)
    obtain ⟨hr1, hr2⟩ := blitRow_pixel row x0 y0 8 (by omega) p qx qy
    rw [coveredRows_cons]
    simp only [blitRows]
    by_cases hrow : y0 % 32 = qy % 32 ∧ CoveredInRow row x0 8 qx
    · have hnot : ¬ CoveredRows rows x0 (y0 + 1) (qx % 64) (qy % 32) := by
        rintro ⟨r, c, h, _, _, _, hy⟩; omega
      exact ⟨fun _ => by rw [ih2 hnot, hr1 hrow], fun h => absurd (Or.inl hrow) h⟩
    · by_cases hrest : CoveredRows rows x0 (y0 + 1) (qx % 64) (qy % 32)
      · exact ⟨fun _ => by rw [ih1 hrest, hr2 hrow], fun h => absurd (Or.inr hrest) h⟩
      · exact ⟨fun h => absurd h (by tauto), fun _ => by rw [ih2 hrest, hr2 hrow]⟩

/-- A sprite of at most 32 rows collides exactly when a pixel under a set bit was on before it (44_display.md R152
(a)). -/
theorem blitRows_hit (x0 y0 : Nat) (rows : List Byte) (p : Framebuffer × Bool) (hn : rows.length ≤ 32) :
    (blitRows x0 y0 rows p).2 = true ↔
      p.2 = true ∨ ∃ px py : Nat, px < 64 ∧ py < 32 ∧ CoveredRows rows x0 y0 px py ∧ p.1.pixel px py = true := by
  induction rows generalizing y0 p with
  | nil =>
    simp only [blitRows]
    exact ⟨Or.inl, fun h => h.resolve_right fun ⟨_, _, _, _, ⟨r, _, h, _⟩, _⟩ => absurd h (by simp)⟩
  | cons row rows ih =>
    have hlen : rows.length + 1 ≤ 32 := by simpa using hn
    rw [blitRows, ih (y0 + 1) _ (by omega), blitRow_hit _ _ _ _ (by omega), or_assoc]
    apply or_congr_right
    constructor
    · rintro (⟨c, hc, hb, hp⟩ | ⟨px, py, hx, hy, hcov, hp⟩)
      · refine ⟨(x0 + c) % 64, y0 % 32, Nat.mod_lt _ (by decide), Nat.mod_lt _ (by decide),
          ⟨0, c, by simp, hc, hb, rfl, rfl⟩, ?_⟩
        rwa [Framebuffer.pixel_mod]
      · have hcov' := hcov
        obtain ⟨r, c, h, _, _, _, hry⟩ := hcov'
        have hx' : px % 64 = px := Nat.mod_eq_of_lt hx
        have hy' : py % 32 = py := Nat.mod_eq_of_lt hy
        have := (blitRow_pixel row x0 y0 8 (by omega) p px py).2 (by rintro ⟨h0, _⟩; omega)
        refine ⟨px, py, hx, hy, ?_, by rwa [this] at hp⟩
        have := (coveredRows_cons row rows x0 y0 px py).2 (Or.inr (by rwa [hx', hy']))
        rwa [hx', hy'] at this
    · rintro ⟨px, py, hx, hy, hcov, hp⟩
      have hx' : px % 64 = px := Nat.mod_eq_of_lt hx
      have hy' : py % 32 = py := Nat.mod_eq_of_lt hy
      have hcov' : CoveredRows (row :: rows) x0 y0 (px % 64) (py % 32) := by rwa [hx', hy']
      rcases (coveredRows_cons row rows x0 y0 px py).1 hcov' with ⟨h0, c, hc, hb, hcx⟩ | hrest
      · refine Or.inl ⟨c, hc, hb, ?_⟩
        rw [← Framebuffer.pixel_mod, hcx, h0, Framebuffer.pixel_mod, hp]
      · rw [hx', hy'] at hrest
        have hrest' := hrest
        obtain ⟨r, c, h, _, _, _, hry⟩ := hrest'
        refine Or.inr ⟨px, py, hx, hy, hrest, ?_⟩
        rw [(blitRow_pixel row x0 y0 8 (by omega) p px py).2 (by rintro ⟨h0, _⟩; omega), hp]

/-- The rows of a DRW: `n` bytes, at most 15. -/
@[simp] theorem State.spriteRows_length (s : State) (n : Nibble) : (s.spriteRows n).length = n.toNat := by
  simp [State.spriteRows]

theorem State.spriteRows_length_le (s : State) (n : Nibble) : (s.spriteRows n).length ≤ 32 := by
  have := n.isLt; rw [State.spriteRows_length]; omega

/-- Row `r` of a sprite is the byte at I + `r`. -/
theorem State.getElem_spriteRows (s : State) (n : Nibble) (r : Nat) (h : r < (s.spriteRows n).length) :
    (s.spriteRows n)[r] = s.byte (s.ea r) :=
  Memory.getElem_readBytes s.mem (s.ea 0) n.toNat r h

/-- The rows that a DRW reads are the bytes of memory from I on. -/
theorem coveredRows_spriteRows (s : State) (n : Nibble) (x0 y0 px py : Nat) :
    CoveredRows (s.spriteRows n) x0 y0 px py ↔ Covered s n.toNat x0 y0 px py := by
  constructor
  · rintro ⟨r, c, h, hc, hb, hx, hy⟩
    refine ⟨r, c, by simpa using h, hc, ?_, hx, hy⟩
    rwa [State.getElem_spriteRows] at hb
  · rintro ⟨r, c, h, hc, hb, hx, hy⟩
    refine ⟨r, c, by simpa using h, hc, ?_, hx, hy⟩
    rwa [State.getElem_spriteRows]

/-- The pixels after DRW's blit: exactly those it draws over are inverted. -/
theorem State.blit_pixel (s : State) (x y : RegNum) (n : Nibble) (qx qy : Nat) :
    (DrawnOver s x y n (qx % 64) (qy % 32) → (s.blit x y n).1.pixel qx qy = !(s.fb.pixel qx qy)) ∧
    (¬ DrawnOver s x y n (qx % 64) (qy % 32) → (s.blit x y n).1.pixel qx qy = s.fb.pixel qx qy) := by
  have := blitRows_pixel (s.reg x).toNat (s.reg y).toNat (s.spriteRows n) (s.fb, false) (s.spriteRows_length_le n) qx qy
  rwa [coveredRows_spriteRows] at this

/-- DRW's blit collides exactly when a pixel it draws over was on. -/
theorem State.blit_hit (s : State) (x y : RegNum) (n : Nibble) : (s.blit x y n).2 = true ↔ Collides s x y n := by
  have := blitRows_hit (s.reg x).toNat (s.reg y).toNat (s.spriteRows n) (s.fb, false) (s.spriteRows_length_le n)
  simp only [coveredRows_spriteRows, Bool.false_eq_true, false_or] at this
  refine this.trans ⟨fun ⟨px, py, hx, hy, h⟩ => ⟨⟨px, hx⟩, ⟨py, hy⟩, h⟩, fun ⟨px, py, h⟩ => ⟨px, py, px.2, py.2, h⟩⟩

end Sys2Proof.Machine
end

