-- ==== Sys2Proof/Laws/Frame.lean ====
section
/-! SUPPORT. A frame from the fields of the state, one premise per element. -/

namespace Sys2Proof.Machine

/-- A frame holds when every field that the listed elements do not name is as before. -/
theorem frameList_of {W : List Element} {s t : State}
    (hv : ∀ r, Element.v r ∉ W → t.reg r = s.reg r) (hi : Element.i ∉ W → t.i = s.i) (hpc : Element.pc ∉ W → t.pc = s.pc)
    (hstack : ∀ k : Fin 16, Element.stack k ∉ W → t.stack[k] = s.stack[k]) (hsp : Element.sp ∉ W → t.sp = s.sp)
    (hdt : Element.dt ∉ W → t.dt = s.dt) (hst : Element.st ∉ W → t.st = s.st)
    (hkey : ∀ k : Fin 16, Element.key k ∉ W → t.keys[k] = s.keys[k])
    (hpixel : ∀ (px : Fin 64) (py : Fin 32), Element.pixel px py ∉ W → t.fb.pixel px.val py.val = s.fb.pixel px.val py.val)
    (hmem : ∀ a, Element.mem a ∉ W → t.byte a = s.byte a) (hdraws : Element.draws ∉ W → t.draws = s.draws) :
    FrameList W s t := by
  intro e he
  cases e with
  | v r => exact congrArg BitVec.toNat (hv r he)
  | i => exact congrArg BitVec.toNat (hi he)
  | pc => exact congrArg BitVec.toNat (hpc he)
  | stack k => exact congrArg BitVec.toNat (hstack k he)
  | sp => exact congrArg Fin.val (hsp he)
  | dt => exact congrArg BitVec.toNat (hdt he)
  | st => exact congrArg BitVec.toNat (hst he)
  | key k => exact congrArg Bool.toNat (hkey k he)
  | pixel px py => exact congrArg Bool.toNat (hpixel px py he)
  | mem a => exact congrArg BitVec.toNat (hmem a he)
  | draws => exact hdraws he

end Sys2Proof.Machine
end

