-- ==== Sys2Proof/Laws/PerInstr.lean ====
section
/-! SUPPORT. Per instruction: its encoding selects its own row of the opcode map (30_encoding.md R65). -/

namespace Sys2Proof.Laws.RowPattern

/-- Some row of the opcode map carries the instruction's id, and its word selects that row. -/
def Statement (i : Instr) : Prop := ∃ r ∈ opcodeMap, r.id = i.id ∧ encode i &&& r.mask = r.pattern

/-! ## Masks on the words of the formats -/

theorem and_nibble (c : Nibble) : c &&& 0xF#4 = c := BitVec.and_allOnes

theorem and_byte (b : Byte) : b &&& 0xFF#8 = b := BitVec.and_allOnes

theorem and_wordA (c : Nibble) (nnn : Addr) : wordA c nnn &&& 0xF000#16 = wordA c 0 := by
  have h : wordA c nnn &&& wordA 0xF 0 = c ++ nnn &&& 0xF#4 ++ 0#12 := rfl
  rw [BitVec.and_append, show wordA 0xF 0 = 0xF000#16 by decide, BitVec.and_zero, and_nibble] at h
  exact h

theorem and_wordXK (c : Nibble) (x : RegNum) (kk : Byte) : wordXK c x kk &&& 0xF000#16 = wordXK c 0 0 := by
  have h : wordXK c x kk &&& wordXK 0xF 0 0 = c ++ (x ++ kk) &&& 0xF#4 ++ (0#4 ++ 0#8) := rfl
  rw [BitVec.and_append, BitVec.and_append, show wordXK 0xF 0 0 = 0xF000#16 by decide,
    BitVec.and_zero, BitVec.and_zero, and_nibble] at h
  exact h

theorem and_wordX (c : Nibble) (x : RegNum) (kk : Byte) : wordXK c x kk &&& 0xF0FF#16 = wordXK c 0 kk := by
  have h : wordXK c x kk &&& wordXK 0xF 0 0xFF = c ++ (x ++ kk) &&& 0xF#4 ++ (0#4 ++ 0xFF#8) := rfl
  rw [BitVec.and_append, BitVec.and_append, show wordXK 0xF 0 0xFF = 0xF0FF#16 by decide,
    BitVec.and_zero, and_nibble, and_byte] at h
  exact h

theorem and_wordXYN (c : Nibble) (x y : RegNum) (n : Nibble) :
    wordXYN c x y n &&& 0xF000#16 = wordXYN c 0 0 0 := by
  have h : wordXYN c x y n &&& wordXYN 0xF 0 0 0 = c ++ (x ++ (y ++ n)) &&& 0xF#4 ++ (0#4 ++ (0#4 ++ 0#4)) := rfl
  rw [BitVec.and_append, BitVec.and_append, BitVec.and_append, show wordXYN 0xF 0 0 0 = 0xF000#16 by decide,
    BitVec.and_zero, BitVec.and_zero, BitVec.and_zero, and_nibble] at h
  exact h

theorem and_wordXY (c : Nibble) (x y : RegNum) (n : Nibble) :
    wordXYN c x y n &&& 0xF00F#16 = wordXYN c 0 0 n := by
  have h : wordXYN c x y n &&& wordXYN 0xF 0 0 0xF = c ++ (x ++ (y ++ n)) &&& 0xF#4 ++ (0#4 ++ (0#4 ++ 0xF#4)) := rfl
  rw [BitVec.and_append, BitVec.and_append, BitVec.and_append, show wordXYN 0xF 0 0 0xF = 0xF00F#16 by decide,
    BitVec.and_zero, BitVec.and_zero, and_nibble, and_nibble] at h
  exact h

/-! ## One lemma per instruction -/

theorem sys (nnn : Addr) : Statement (.sys nnn) :=
  ⟨⟨"SYS", 0xF000, 0x0000⟩, by decide, rfl, ((and_wordA ..).trans (by decide))⟩

theorem cls : Statement .cls :=
  ⟨⟨"CLS", 0xFFFF, 0x00E0⟩, by decide, rfl, by decide⟩

theorem ret : Statement .ret :=
  ⟨⟨"RET", 0xFFFF, 0x00EE⟩, by decide, rfl, by decide⟩

theorem jp (nnn : Addr) : Statement (.jp nnn) :=
  ⟨⟨"JP", 0xF000, 0x1000⟩, by decide, rfl, ((and_wordA ..).trans (by decide))⟩

theorem call (nnn : Addr) : Statement (.call nnn) :=
  ⟨⟨"CALL", 0xF000, 0x2000⟩, by decide, rfl, ((and_wordA ..).trans (by decide))⟩

theorem seKk (x : RegNum) (kk : Byte) : Statement (.seKk x kk) :=
  ⟨⟨"SE_KK", 0xF000, 0x3000⟩, by decide, rfl, ((and_wordXK ..).trans (by decide))⟩

theorem sneKk (x : RegNum) (kk : Byte) : Statement (.sneKk x kk) :=
  ⟨⟨"SNE_KK", 0xF000, 0x4000⟩, by decide, rfl, ((and_wordXK ..).trans (by decide))⟩

theorem seVy (x y : RegNum) : Statement (.seVy x y) :=
  ⟨⟨"SE_VY", 0xF00F, 0x5000⟩, by decide, rfl, ((and_wordXY ..).trans (by decide))⟩

theorem ld (x : RegNum) (kk : Byte) : Statement (.ld x kk) :=
  ⟨⟨"LD", 0xF000, 0x6000⟩, by decide, rfl, ((and_wordXK ..).trans (by decide))⟩

theorem addKk (x : RegNum) (kk : Byte) : Statement (.addKk x kk) :=
  ⟨⟨"ADD_KK", 0xF000, 0x7000⟩, by decide, rfl, ((and_wordXK ..).trans (by decide))⟩

theorem ldVy (x y : RegNum) : Statement (.ldVy x y) :=
  ⟨⟨"LD_VY", 0xF00F, 0x8000⟩, by decide, rfl, ((and_wordXY ..).trans (by decide))⟩

theorem or (x y : RegNum) : Statement (.or x y) :=
  ⟨⟨"OR", 0xF00F, 0x8001⟩, by decide, rfl, ((and_wordXY ..).trans (by decide))⟩

theorem and (x y : RegNum) : Statement (.and x y) :=
  ⟨⟨"AND", 0xF00F, 0x8002⟩, by decide, rfl, ((and_wordXY ..).trans (by decide))⟩

theorem xor (x y : RegNum) : Statement (.xor x y) :=
  ⟨⟨"XOR", 0xF00F, 0x8003⟩, by decide, rfl, ((and_wordXY ..).trans (by decide))⟩

theorem add (x y : RegNum) : Statement (.add x y) :=
  ⟨⟨"ADD", 0xF00F, 0x8004⟩, by decide, rfl, ((and_wordXY ..).trans (by decide))⟩

theorem sub (x y : RegNum) : Statement (.sub x y) :=
  ⟨⟨"SUB", 0xF00F, 0x8005⟩, by decide, rfl, ((and_wordXY ..).trans (by decide))⟩

theorem shr (x y : RegNum) : Statement (.shr x y) :=
  ⟨⟨"SHR", 0xF00F, 0x8006⟩, by decide, rfl, ((and_wordXY ..).trans (by decide))⟩

theorem subn (x y : RegNum) : Statement (.subn x y) :=
  ⟨⟨"SUBN", 0xF00F, 0x8007⟩, by decide, rfl, ((and_wordXY ..).trans (by decide))⟩

theorem shl (x y : RegNum) : Statement (.shl x y) :=
  ⟨⟨"SHL", 0xF00F, 0x800E⟩, by decide, rfl, ((and_wordXY ..).trans (by decide))⟩

theorem sneVy (x y : RegNum) : Statement (.sneVy x y) :=
  ⟨⟨"SNE_VY", 0xF00F, 0x9000⟩, by decide, rfl, ((and_wordXY ..).trans (by decide))⟩

theorem ldi (nnn : Addr) : Statement (.ldi nnn) :=
  ⟨⟨"LDI", 0xF000, 0xA000⟩, by decide, rfl, ((and_wordA ..).trans (by decide))⟩

theorem jp0 (nnn : Addr) : Statement (.jp0 nnn) :=
  ⟨⟨"JP0", 0xF000, 0xB000⟩, by decide, rfl, ((and_wordA ..).trans (by decide))⟩

theorem rnd (x : RegNum) (kk : Byte) : Statement (.rnd x kk) :=
  ⟨⟨"RND", 0xF000, 0xC000⟩, by decide, rfl, ((and_wordXK ..).trans (by decide))⟩

theorem drw (x y : RegNum) (n : Nibble) : Statement (.drw x y n) :=
  ⟨⟨"DRW", 0xF000, 0xD000⟩, by decide, rfl, ((and_wordXYN ..).trans (by decide))⟩

theorem skp (x : RegNum) : Statement (.skp x) :=
  ⟨⟨"SKP", 0xF0FF, 0xE09E⟩, by decide, rfl, ((and_wordX ..).trans (by decide))⟩

theorem sknp (x : RegNum) : Statement (.sknp x) :=
  ⟨⟨"SKNP", 0xF0FF, 0xE0A1⟩, by decide, rfl, ((and_wordX ..).trans (by decide))⟩

theorem ldVxDt (x : RegNum) : Statement (.ldVxDt x) :=
  ⟨⟨"LD_VX_DT", 0xF0FF, 0xF007⟩, by decide, rfl, ((and_wordX ..).trans (by decide))⟩

theorem ldk (x : RegNum) : Statement (.ldk x) :=
  ⟨⟨"LDK", 0xF0FF, 0xF00A⟩, by decide, rfl, ((and_wordX ..).trans (by decide))⟩

theorem ldDtVx (x : RegNum) : Statement (.ldDtVx x) :=
  ⟨⟨"LD_DT_VX", 0xF0FF, 0xF015⟩, by decide, rfl, ((and_wordX ..).trans (by decide))⟩

theorem ldStVx (x : RegNum) : Statement (.ldStVx x) :=
  ⟨⟨"LD_ST_VX", 0xF0FF, 0xF018⟩, by decide, rfl, ((and_wordX ..).trans (by decide))⟩

theorem addi (x : RegNum) : Statement (.addi x) :=
  ⟨⟨"ADDI", 0xF0FF, 0xF01E⟩, by decide, rfl, ((and_wordX ..).trans (by decide))⟩

theorem ldf (x : RegNum) : Statement (.ldf x) :=
  ⟨⟨"LDF", 0xF0FF, 0xF029⟩, by decide, rfl, ((and_wordX ..).trans (by decide))⟩

theorem sbcd (x : RegNum) : Statement (.sbcd x) :=
  ⟨⟨"SBCD", 0xF0FF, 0xF033⟩, by decide, rfl, ((and_wordX ..).trans (by decide))⟩

theorem sri (x : RegNum) : Statement (.sri x) :=
  ⟨⟨"SRI", 0xF0FF, 0xF055⟩, by decide, rfl, ((and_wordX ..).trans (by decide))⟩

theorem lir (x : RegNum) : Statement (.lir x) :=
  ⟨⟨"LIR", 0xF0FF, 0xF065⟩, by decide, rfl, ((and_wordX ..).trans (by decide))⟩

end Sys2Proof.Laws.RowPattern
end

