-- ==== Sys2Proof/Tests/Slice0.lean ====
section
/-! SUPPORT. The model's own tests: which terms are ill-formed, every constructor decoded from a word written out by hand, one
step per instruction against the vectors of 95_test_vectors.md (T and E numbers), and for every statement with hypotheses a
witness that meets them. -/

set_option maxRecDepth 20000

namespace Sys2Proof.Tests

open Sys2Proof.Machine

/-! ## Helpers -/

/-- The reset state with some registers set. -/
def st (regs : List (RegNum × Byte)) : State := regs.foldl (fun s p => s.setReg p.1 p.2) State.reset

/-- The state after one step on word `w`, none when the step faults. -/
def after (s : State) (w : Nat) : Option State :=
  match step (s.withFetchWord 16 w) with
  | .next t => some t
  | _ => none

/-- The fault of one step on word `w`, none when it completes. -/
def faultOf (s : State) (w : Nat) : Option Fault :=
  match step (s.withFetchWord 16 w) with
  | .fault f => some f
  | _ => none

/-- The state with `b` at address `a`. -/
def poke (s : State) (a : Nat) (b : Byte) : State := { s with mem := s.mem.write a b }

/-- The state with one key down. -/
def press (s : State) (k : Fin 16) : State := { s with keys := s.keys.set k.val true k.isLt }

/-- The state with one pixel toggled. -/
def dot (s : State) (px py : Nat) : State := { s with fb := s.fb.toggle px py }

/-! ## Well-formed terms (30_encoding.md R66) -/

theorem test_wellFormed_refuses_sys_of_cls : (Instr.sys 0x0E0).wellFormed = false := by decide
theorem test_wellFormed_refuses_sys_of_ret : (Instr.sys 0x0EE).wellFormed = false := by decide
theorem test_wellFormed_accepts_sys : (Instr.sys 0x0E1).wellFormed = true := by decide

/-! ## Decoding: the words are written out from the patterns of 30_encoding.md R65 -/

theorem test_decode_class0 :
    decode 0b0000000011100000#16 = .ok .cls ∧ decode 0b0000000011101110#16 = .ok .ret ∧
    decode 0b0000000100100011#16 = .ok (.sys 0x123) ∧ decode 0b0000000011100001#16 = .ok (.sys 0x0E1) := by decide
theorem test_decode_jumps :
    decode 0b0001001000000100#16 = .ok (.jp 0x204) ∧ decode 0b0010001000001010#16 = .ok (.call 0x20A) ∧
    decode 0b1011001100000001#16 = .ok (.jp0 0x301) := by decide
theorem test_decode_skips :
    decode 0b0011000101011010#16 = .ok (.seKk 0x1 0x5A) ∧ decode 0b0100001010100101#16 = .ok (.sneKk 0x2 0xA5) ∧
    decode 0b0101001000110000#16 = .ok (.seVy 0x2 0x3) ∧ decode 0b1001010001010000#16 = .ok (.sneVy 0x4 0x5) := by decide
theorem test_decode_immediates :
    decode 0b0110000000001010#16 = .ok (.ld 0x0 0x0A) ∧ decode 0b0111111110000001#16 = .ok (.addKk 0xF 0x81) ∧
    decode 0b1010001100000001#16 = .ok (.ldi 0x301) ∧ decode 0b1100011111110000#16 = .ok (.rnd 0x7 0xF0) := by decide
theorem test_decode_class8_logic :
    decode 0b1000001000110000#16 = .ok (.ldVy 0x2 0x3) ∧ decode 0b1000001000110001#16 = .ok (.or 0x2 0x3) ∧
    decode 0b1000001000110010#16 = .ok (.and 0x2 0x3) ∧ decode 0b1000001000110011#16 = .ok (.xor 0x2 0x3) := by decide
theorem test_decode_class8_flags :
    decode 0b1000000000010100#16 = .ok (.add 0x0 0x1) ∧ decode 0b1000000000010101#16 = .ok (.sub 0x0 0x1) ∧
    decode 0b1000101010110110#16 = .ok (.shr 0xA 0xB) ∧ decode 0b1000000000010111#16 = .ok (.subn 0x0 0x1) ∧
    decode 0b1000101010111110#16 = .ok (.shl 0xA 0xB) := by decide
theorem test_decode_drw : decode 0b1101000100100101#16 = .ok (.drw 0x1 0x2 0x5) := by decide
theorem test_decode_keys :
    decode 0b1110001110011110#16 = .ok (.skp 0x3) ∧ decode 0b1110001110100001#16 = .ok (.sknp 0x3) ∧
    decode 0b1111010100001010#16 = .ok (.ldk 0x5) := by decide
theorem test_decode_timers :
    decode 0b1111001000000111#16 = .ok (.ldVxDt 0x2) ∧ decode 0b1111001000010101#16 = .ok (.ldDtVx 0x2) ∧
    decode 0b1111001000011000#16 = .ok (.ldStVx 0x2) := by decide
theorem test_decode_index :
    decode 0b1111001000011110#16 = .ok (.addi 0x2) ∧ decode 0b1111101100101001#16 = .ok (.ldf 0xB) ∧
    decode 0b1111101000110011#16 = .ok (.sbcd 0xA) ∧ decode 0b1111001001010101#16 = .ok (.sri 0x2) ∧
    decode 0b1111001001100101#16 = .ok (.lir 0x2) := by decide
/-- T5 to T12. -/
theorem test_decode_refuses :
    decode 0x5121#16 = .error .illegalClass5 ∧ decode 0x9001#16 = .error .illegalClass9 ∧
    decode 0x8008#16 = .error .illegalClass8 ∧ decode 0x800F#16 = .error .illegalClass8 ∧
    decode 0xE19F#16 = .error .illegalClassE ∧ decode 0xF375#16 = .error .illegalClassF := by decide
theorem test_decodeBytes_truncated : decodeBytes [0x60] = .error .truncated := by decide
theorem test_decodeTableWord : decodeTableWord 16 0xD125 = some (.drw 0x1 0x2 0x5) ∧ decodeTableWord 16 0x5121 = none := by
  decide
/-- The word stands high byte first (20_memory.md R42). -/
theorem test_withFetchWord_bytes :
    let s := State.reset.withFetchWord 16 0x600A
    s.byte 0x200 = 0x60 ∧ s.byte 0x201 = 0x0A ∧ s.pc = 0x200 := by decide

/-! ## Control transfer -/

/-- T2 and (e) of P8. -/
theorem test_sys : faultOf State.reset 0x0123 = some .illegalOpcode ∧ step State.reset = .fault .illegalOpcode :=
  ⟨by decide, by rfl⟩
/-- T56. -/
theorem test_ret : (after { State.reset with sp := 1, stack := State.reset.stack.set 0 0x206 } 0x00EE).map
    (fun t => (t.sp, t.pc, t.stack[0])) = some (0, 0x206, 0x206) := by decide
/-- T57. -/
theorem test_ret_empty : faultOf State.reset 0x00EE = some .stackUnderflow := by decide
/-- T50. -/
theorem test_jp : (after { State.reset with pc := 0x20A } 0x1204).map (·.pc) = some 0x204 := by decide
/-- T54. -/
theorem test_call : (after { State.reset with sp := 15 } 0x2300).map (fun t => (t.stack[15], t.sp, t.pc)) =
    some (0x202, 16, 0x300) := by decide
/-- T55. -/
theorem test_call_full : faultOf { State.reset with sp := 16 } 0x2300 = some .stackOverflow := by decide
/-- T59, T60. -/
theorem test_seKk : (after (st []) 0x3100).map (·.pc) = some 0x204 ∧ (after (st [(1, 1)]) 0x3100).map (·.pc) = some 0x202 := by
  decide
/-- T61, T62. -/
theorem test_sneKk : (after (st [(0, 5)]) 0x4005).map (·.pc) = some 0x202 ∧
    (after (st [(0, 5)]) 0x4006).map (·.pc) = some 0x204 := by decide
/-- T63, T64. -/
theorem test_seVy : (after (st [(2, 7), (3, 7)]) 0x5230).map (·.pc) = some 0x204 ∧
    (after (st [(2, 7), (3, 8)]) 0x5230).map (·.pc) = some 0x202 := by decide
/-- T66, T67. -/
theorem test_sneVy : (after (st [(2, 7), (3, 8)]) 0x9230).map (·.pc) = some 0x204 ∧
    (after (st [(2, 7), (3, 7)]) 0x9230).map (·.pc) = some 0x202 := by decide
/-- T69. -/
theorem test_jp0_no_wrap : (after (st [(0, 0xFF)]) 0xBFFF).map (·.pc) = some 0x10FE := by decide
/-- T70. -/
theorem test_jp0_adds_v0 : (after (st [(0, 0x01), (2, 0x80)]) 0xB2FF).map (·.pc) = some 0x300 := by decide

/-! ## Load, arithmetic, logic, shift, random -/

/-- T19b. -/
theorem test_ld : (after (st []) 0x6FFF).map (fun t => (t.reg 0xF, t.pc)) = some (0xFF, 0x202) := by decide
/-- T19d. -/
theorem test_addKk_no_flag : (after (st [(0, 0xFF)]) 0x7002).map (fun t => (t.reg 0, t.reg 0xF)) = some (0x01, 0) := by decide
/-- T19f. -/
theorem test_ldVy : (after (st [(1, 0x2A)]) 0x8010).map (fun t => (t.reg 0, t.reg 1)) = some (0x2A, 0x2A) := by decide
/-- T19g. -/
theorem test_or_keeps_vf : (after (st [(0, 0xF0), (1, 0x0F), (0xF, 1)]) 0x8011).map (fun t => (t.reg 0, t.reg 0xF)) =
    some (0xFF, 1) := by decide
/-- T19h. -/
theorem test_and_keeps_vf : (after (st [(0, 0xF3), (1, 0x3C), (0xF, 1)]) 0x8012).map (fun t => (t.reg 0, t.reg 0xF)) =
    some (0x30, 1) := by decide
/-- T19i. -/
theorem test_xor_keeps_vf : (after (st [(0, 0xFF), (1, 0x0F), (0xF, 1)]) 0x8013).map (fun t => (t.reg 0, t.reg 0xF)) =
    some (0xF0, 1) := by decide
/-- T21. -/
theorem test_add_carry : (after (st [(0, 0xFF), (1, 0x01)]) 0x8014).map (fun t => (t.reg 0, t.reg 0xF)) = some (0x00, 1) := by
  decide
/-- T25. -/
theorem test_add_into_vf : (after (st [(0xF, 0xF0), (0, 0x20)]) 0x8F04).map (fun t => t.reg 0xF) = some 0x10 := by decide
/-- T29. -/
theorem test_sub_wraps : (after (st [(0, 3), (1, 10)]) 0x8015).map (fun t => (t.reg 0, t.reg 0xF)) = some (249, 0) := by decide
/-- T30. -/
theorem test_sub_equal : (after (st [(0, 7), (1, 7), (0xF, 1)]) 0x8015).map (fun t => (t.reg 0, t.reg 0xF)) = some (0, 0) := by
  decide
/-- T38. -/
theorem test_shr_ignores_y : (after (st [(2, 0x05), (3, 0xFF)]) 0x8236).map (fun t => (t.reg 2, t.reg 3, t.reg 0xF)) =
    some (0x02, 0xFF, 1) := by decide
/-- T41. -/
theorem test_shr_vf : (after (st [(0xF, 0x03)]) 0x8F06).map (fun t => t.reg 0xF) = some 0x01 := by decide
/-- T34 (source E2). -/
theorem test_subn : (after (st [(0, 5), (1, 10)]) 0x8017).map (fun t => (t.reg 0, t.reg 0xF)) = some (5, 1) := by decide
/-- T35. -/
theorem test_subn_wraps : (after (st [(0, 10), (1, 5)]) 0x8017).map (fun t => (t.reg 0, t.reg 0xF)) = some (251, 0) := by decide
/-- T43. -/
theorem test_shl_ignores_y : (after (st [(2, 0x40), (3, 0xFF), (0xF, 1)]) 0x823E).map
    (fun t => (t.reg 2, t.reg 3, t.reg 0xF)) = some (0x80, 0xFF, 0) := by decide
/-- T45. -/
theorem test_shl_vf : (after (st [(0xF, 0xC1)]) 0x8F0E).map (fun t => t.reg 0xF) = some 0x82 := by decide
/-- T46, with the random byte given as the spec gives it. -/
theorem test_rnd_on_byte : let r := (State.reset.withFetchWord 16 0xC00F).toArch.step 0xA7
    r.1 = .ok ∧ r.2.v[0] = 0x07 ∧ r.2.pc = 0x202 := by decide
/-- T47: mask 0 gives 0 whatever the byte; the environment's place moves on. -/
theorem test_rnd_mask_zero : ∃ t, after (st [(1, 0x55)]) 0xC100 = some t ∧ t.draws = 1 ∧ t.reg 1 = Config.rnd 0 &&& 0 :=
  ⟨_, rfl, rfl, rfl⟩

/-! ## Index register and memory transfers -/

/-- T72. -/
theorem test_ldi : (after (st []) 0xAFFF).map (·.i) = some 0x0FFF := by decide
/-- T74. -/
theorem test_addi_past_memory : (after { st [(0, 1)] with i := 0x0FFF } 0xF01E).map (fun t => (t.i, t.reg 0xF)) =
    some (0x1000, 0) := by decide
/-- T75. -/
theorem test_addi_wraps : (after { st [(0, 1)] with i := 0xFFFF } 0xF01E).map (·.i) = some 0x0000 := by decide
/-- T78. -/
theorem test_ldf_low_nibble : (after (st [(0, 0x1A)]) 0xF029).map (·.i) = some 0x0082 := by decide
/-- T80. -/
theorem test_ldf_last_glyph : (after (st [(0, 0xFF)]) 0xF029).map (·.i) = some 0x009B := by decide
/-- T83. -/
theorem test_sbcd_top : (after { st [(0, 100)] with i := 0xFFD } 0xF033).map
    (fun t => (t.byte 0xFFD, t.byte 0xFFE, t.byte 0xFFF)) = some (1, 0, 0) := by decide
/-- T84, T85. -/
theorem test_sbcd_out : faultOf { st [(0, 100)] with i := 0xFFE } 0xF033 = some .addressOutOfRange ∧
    faultOf { st [(0, 100)] with i := 0xFFFF } 0xF033 = some .addressOutOfRange := by decide
/-- T86. -/
theorem test_sri : (after { st [(0, 1), (1, 2), (2, 3), (3, 4)] with i := 0x300 } 0xF255).map
    (fun t => (t.byte 0x300, t.byte 0x301, t.byte 0x302, t.byte 0x303, t.i)) = some (1, 2, 3, 0, 0x300) := by decide
/-- T87, T88. -/
theorem test_sri_edge : (after { st [(0, 0xAA)] with i := 0xFFF } 0xF055).map (fun t => t.byte 0xFFF) = some 0xAA ∧
    faultOf { st [(0, 0xAA), (1, 0xBB)] with i := 0xFFF } 0xF155 = some .addressOutOfRange := by decide
/-- T90b: glyph 2 of the font. -/
theorem test_lir_font : (after { st [(5, 0x77)] with i := 0x05A } 0xF465).map
    (fun t => (t.reg 0, t.reg 1, t.reg 2, t.reg 3, t.reg 4, t.reg 5)) = some (0xF0, 0x10, 0xF0, 0x80, 0xF0, 0x77) := by decide
/-- T91. -/
theorem test_lir_out : faultOf { st [] with i := 0xFFF } 0xF165 = some .addressOutOfRange := by decide

/-! ## Display -/

/-- T107. -/
theorem test_cls : (after (dot (dot (st [(0xF, 1)]) 5 5) 63 31) 0x00E0).map
    (fun t => (t.fb.pixel 5 5, t.fb.pixel 63 31, t.reg 0xF)) = some (false, false, 1) := by decide
/-- P4 after its first DRW: rows and columns wrap, bit 7 is the leftmost. -/
theorem test_drw_wraps :
    (after { poke (poke (st [(0, 62), (1, 31), (0xF, 9)]) 0x300 0xC0) 0x301 0x81 with i := 0x300 } 0xD012).map
    (fun t => ([t.fb.pixel 62 31, t.fb.pixel 63 31, t.fb.pixel 62 0, t.fb.pixel 5 0, t.fb.pixel 0 31, t.fb.pixel 63 0], t.reg 0xF)) =
    some ([true, true, true, true, false, false], 0) := by decide
/-- T94. -/
theorem test_drw_collision : (after { poke (dot (st []) 1 0) 0x300 0xC0 with i := 0x300 } 0xD011).map
    (fun t => (t.fb.pixel 0 0, t.fb.pixel 1 0, t.reg 0xF)) = some (true, false, 1) := by decide

/-! ## Keys and timers -/

/-- T108c, T108b. -/
theorem test_skp : (after (press (st [(3, 0x1A)]) 10) 0xE39E).map (·.pc) = some 0x204 ∧
    (after (st [(3, 0x0A)]) 0xE39E).map (·.pc) = some 0x202 := by decide
/-- T109, T109b. -/
theorem test_sknp : (after (st [(3, 0x0A)]) 0xE3A1).map (·.pc) = some 0x204 ∧
    (after (press (st [(3, 0x0A)]) 10) 0xE3A1).map (·.pc) = some 0x202 := by decide
/-- T110. -/
theorem test_ldk_waits : (after (st [(5, 0x99)]) 0xF50A).map (fun t => (t.reg 5, t.pc)) = some (0x99, 0x200) := by decide
/-- T111. -/
theorem test_ldk_lowest : (after (press (press (st [(5, 0x99)]) 7) 9) 0xF50A).map (fun t => (t.reg 5, t.pc)) =
    some (0x07, 0x202) := by decide
/-- T114. -/
theorem test_ldVxDt : (after { st [] with dt := 0x3C } 0xF207).map (fun t => (t.reg 2, t.dt)) = some (0x3C, 0x3C) := by decide
/-- T115. -/
theorem test_ldDtVx : (after (st [(2, 0x3C)]) 0xF215).map (fun t => (t.dt, t.st)) = some (0x3C, 0) := by decide
/-- T116. -/
theorem test_ldStVx : (after (st [(2, 5)]) 0xF218).map (fun t => (t.st, t.dt, t.toneOn)) = some (5, 0, true) := by decide

/-! ## The step and the ports -/

/-- T13, T14. -/
theorem test_fetch_out : step { State.reset with pc := 0xFFF } = .fault .addressOutOfRange ∧
    step { State.reset with pc := 0x1000 } = .fault .addressOutOfRange := ⟨by rfl, by rfl⟩
/-- T15. -/
theorem test_fetch_last : (after { State.reset with pc := 0xFFE } 0x6001).map (fun t => (t.reg 0, t.pc)) = some (1, 0x1000) := by
  decide
/-- T17. -/
theorem test_fetch_odd : (after { State.reset with pc := 0x201 } 0x6007).map (fun t => (t.reg 0, t.pc)) = some (7, 0x203) := by
  decide
/-- T118, T119. -/
theorem test_decrementTimers :
    let s := ({ State.reset with dt := 2, st := 1 } : State).decrementTimers
    (s.dt, s.st) = (1, 0) ∧ (s.decrementTimers.dt, s.decrementTimers.st) = (0, 0) ∧
    ({ State.reset with dt := 255 } : State).decrementTimers.dt = 254 := by decide
/-- T123. -/
theorem test_initialise : (Arch.initialise [0x60, 0x0A, 0x61, 0x05, 0x80, 0x14]).toOption.map
    (fun m => (m.mem.read 0x200, m.mem.read 0x205, m.mem.read 0x206, m.mem.read 0x09F, m.pc)) = some (0x60, 0x14, 0x00, 0x80, 0x200) := by decide
/-- T125. -/
theorem test_initialise_too_large : Arch.initialise (List.replicate 3585 0xAB) = .error .romTooLarge := by
  unfold Arch.initialise; rw [if_pos (by rw [List.length_replicate]; decide)]
/-- T18: the numbers of the faults stand in 60_exceptions.md R170. -/
theorem test_stepPort_fault : stepPort State.reset = (.fault .illegalOpcode, State.reset) ∧ Fault.code .illegalOpcode = 1 :=
  ⟨rfl, rfl⟩

/-! ## Witnesses: for each statement with hypotheses, concrete values that meet them -/

/-- A state with one held address. -/
def held (a : Word) : State := { State.reset with sp := 1, stack := State.reset.stack.set 0 a }

/-- A state with registers and I set. -/
def withI (i : Word) (regs : List (RegNum × Byte)) : State := { st regs with i := i }

theorem witness_RetPopsReturnAddress_empty : State.reset.sp.val = 0 := by decide
theorem witness_RetPopsReturnAddress_held : 0 < (held 0x0FFF).sp.val ∧ (held 0x0FFF).Inv ∧
    ∃ t, exec .ret (held 0x0FFF) = .next t ∧ 0xFFF ≤ t.pc.toNat :=
  ⟨by decide, ⟨by decide, by decide, Memory.wf_nil⟩, _, rfl, by decide⟩
theorem witness_RetPopsReturnAddress_full : ({ State.reset with sp := 16 } : State).sp.val - 1 = 15 := by decide
theorem witness_JpSetsPc_end : (0xFFF#12).toNat = 0xFFF := by decide
theorem witness_JpSetsPc_self : (State.reset.withFetchWord 16 0x1200).fetch = some (wordA 0x1 0x200) ∧
    (State.reset.withFetchWord 16 0x1200).pc.toNat = (0x200#12).toNat := by decide
theorem witness_CallPushesAndJumps : ({ State.reset with sp := 16 } : State).sp.val = 16 ∧
    ({ State.reset with sp := 15 } : State).sp.val < 16 ∧ State.reset.sp.val < 16 := by decide
theorem witness_RegisterComparesSkip : (1 : Nibble) ≠ 0 ∧ (0xF : Nibble) ≠ 0 := by decide
theorem witness_Jp0AddsV0_end : ∃ t, exec (.jp0 0xF00) (st [(0, 0xFF)]) = .next t ∧ t.pc.toNat = 0xFFF := ⟨_, rfl, by decide⟩
theorem witness_flag_destination : (0x0#4 : RegNum) ≠ vf ∧ (0xE#4 : RegNum) ≠ vf := by decide
theorem witness_RndMasksFreeByte_bit : (0x7F#8).getLsbD 7 = false ∧ (0x00#8).getLsbD 0 = false := by decide
theorem witness_SbcdStoresDecimalDigits : (withI 0xFFE []).i.toNat + 2 > 0xFFF ∧ (withI 0xFFD []).i.toNat + 2 ≤ 0xFFF := by
  decide
theorem witness_transfer_bounds : (withI 0xFFF []).i.toNat + (0x1#4).toNat > 0xFFF ∧
    (withI 0xFFF []).i.toNat + (0x0#4).toNat ≤ 0xFFF ∧ (withI 0xFF1 []).i.toNat + (0xF#4).toNat > 0xFFF ∧
    (withI 0xFF0 []).i.toNat + (0xF#4).toNat ≤ 0xFFF := by decide
theorem witness_LirAfterSriRestores : ∃ t u : State, exec (.sri 0x1) (withI 0x300 [(0, 1), (1, 2)]) = .next t ∧ u.mem = t.mem ∧
    u.i = t.i ∧ u.reg 0x0 ≠ t.reg 0x0 := ⟨_, { State.reset with mem := [(0x300, 1), (0x301, 2)], i := 0x300 }, rfl, by decide⟩
theorem witness_DrwDrawsByXor_bounds : (0 < (0x2#4).toNat ∧ (withI 0xFFF []).i.toNat + (0x2#4).toNat - 1 > 0xFFF) ∧
    (withI 0xFFF []).i.toNat + (0x1#4).toNat - 1 ≤ 0xFFF ∧ (0x0#4).toNat = 0 := by decide
/-- A sprite of one dot at 0x300, drawn at (0, 0) over a pixel that is on. -/
def dotted : State := { poke (dot (st []) 0 0) 0x300 0x80 with i := 0x300 }
theorem witness_DrwDrawsByXor_drawn : DrawnOver dotted 0x0 0x1 0x1 0 0 ∧ Collides dotted 0x0 0x1 0x1 :=
  ⟨⟨0, 0, by decide⟩, 0, 0, ⟨0, 0, by decide⟩, by decide⟩
theorem witness_DrwDrawsByXor_undrawn : ¬ DrawnOver dotted 0x0 0x1 0x1 1 0 ∧ ¬ Collides dotted 0x0 0x1 0x0 :=
  ⟨fun ⟨r, c, hr, hc, h⟩ => by
      have hr : r = 0 := Nat.lt_one_iff.1 hr
      subst hr; interval_cases c <;> revert h <;> decide,
    fun ⟨_, _, ⟨_, _, h, _⟩, _⟩ => absurd h (Nat.not_lt_zero _)⟩
theorem witness_DrwTwiceRestoresPixels : ∃ t u : State, exec (.drw 0x0 0x1 0x1) dotted = .next t ∧
    u.fb = t.fb ∧ u.i = dotted.i ∧ u.mem = dotted.mem ∧ u.reg 0x0 = dotted.reg 0x0 ∧ u.reg 0x1 = dotted.reg 0x1 ∧
    u.pc ≠ dotted.pc := ⟨_, { dotted with fb := _, pc := 0x300 }, rfl, rfl, rfl, rfl, rfl, rfl, by decide⟩
theorem witness_LdkWaitsOrTakesLowestKey_none : (∀ k : Fin 16, State.reset.keys[k] = false) ∧
    (State.reset.withFetchWord 16 0xF50A).fetch = some (wordXK 0xF 0x5 0x0A) ∧
    ∀ k : Fin 16, (State.reset.withFetchWord 16 0xF50A).keys[k] = false := by decide
theorem witness_LdkWaitsOrTakesLowestKey_some : (press (press State.reset 15) 7).keys[(7 : Fin 16)] = true ∧
    ∀ j : Fin 16, j < 7 → (press (press State.reset 15) 7).keys[j] = false := by decide
theorem witness_LdkWaitsOrTakesLowestKey_ends : (press State.reset 0).keys[(0 : Fin 16)] = true ∧
    (press State.reset 15).keys[(15 : Fin 16)] = true ∧ ∀ j : Fin 16, j < 15 → (press State.reset 15).keys[j] = false := by decide
theorem witness_DecodeOfEncode : (Instr.sys 0x0EF).wellFormed = true ∧ (Instr.drw 0xF 0xF 0xF).wellFormed = true := by decide
theorem witness_EncodeOfDecode : decode 0xDFFF#16 = .ok (.drw 0xF 0xF 0xF) ∧ decode 0x0000#16 = .ok (.sys 0) := by decide
theorem witness_OpcodeRowsOverlapOnlyInSys : (⟨"SYS", 0xF000, 0x0000⟩ : OpcodeRow) ∈ opcodeMap ∧
    (⟨"CLS", 0xFFFF, 0x00E0⟩ : OpcodeRow) ∈ opcodeMap ∧
    (⟨"SYS", 0xF000, 0x0000⟩ : OpcodeRow) ≠ ⟨"CLS", 0xFFFF, 0x00E0⟩ := by decide
theorem witness_IllegalWordsFault : (State.reset.withFetchWord 16 0xF366).fetch = some 0xF366#16 ∧
    decode 0xF366#16 = .error .illegalClassF := by decide
theorem witness_FetchIsBigEndian : ({ State.reset with pc := 0xFFE } : State).pc.toNat ≤ 0xFFE ∧
    ({ State.reset with pc := 0x201 } : State).pc.toNat ≤ 0xFFE := by decide
theorem witness_StepExecutesDecodedInstruction :
    let s := ({ State.reset with pc := 0xFFE } : State).withFetchWord 16 0x6001
    s.pc.toNat + 1 ≤ 0xFFF ∧ decode (wordOfBytes (s.byte s.pc.toNat) (s.byte (s.pc.toNat + 1))) = .ok (.ld 0x0 0x01) := by decide
/-- Each fault of 60_exceptions.md R170 is raised by some handler, and some handler raises none. -/
theorem witness_HandlerFaultsExactly : handlerFault (.sys 0x123) State.reset = some .illegalOpcode ∧
    handlerFault .ret State.reset = some .stackUnderflow ∧
    handlerFault (.call 0x300) { State.reset with sp := 16 } = some .stackOverflow ∧
    handlerFault (.lir 0x1) (withI 0xFFF []) = some .addressOutOfRange ∧ handlerFault .cls State.reset = none := by decide
theorem witness_StepFaultsInOrder : stepFault { State.reset with pc := 0xFFF } = some .addressOutOfRange ∧
    stepFault (State.reset.withFetchWord 16 0x8008) = some .illegalOpcode ∧
    stepFault (State.reset.withFetchWord 16 0x00EE) = some .stackUnderflow ∧
    stepFault (State.reset.withFetchWord 16 0x6001) = none := by decide
theorem witness_FaultChangesNothing : stepPort State.reset = (.fault .illegalOpcode, State.reset) := rfl
/-- The premises of the statements about a completed step, for a step that completes. -/
theorem witness_completed_step :
    let s := State.reset.withFetchWord 16 0x1234
    s.fetch = some 0x1234#16 ∧ decode 0x1234#16 = .ok (.jp 0x234) ∧ ∃ t, step s = .next t ∧ t.pc = 0x234 :=
  ⟨by decide, by decide, _, rfl, by decide⟩
theorem witness_EveryInstructionKeepsItsFrame : ∃ t, exec (.sri 0x2) (withI 0x300 []) = .next t := ⟨_, rfl⟩
theorem witness_StepLeavesKeysAndTimers :
    let s := State.reset.withFetchWord 16 0x1234
    s.fetch = some 0x1234#16 ∧ decode 0x1234#16 = .ok (.jp 0x234) ∧ (∃ t, step s = .next t) ∧
    (∀ x, Instr.jp 0x234 ≠ .ldDtVx x) ∧ ∀ x, Instr.jp 0x234 ≠ .ldStVx x :=
  ⟨by decide, by decide, ⟨_, rfl⟩, (fun _ h => nomatch h), fun _ h => nomatch h⟩
theorem witness_RandomByteOnlyInRnd : (State.reset.withFetchWord 16 0x00E0).fetch = some 0x00E0#16 ∧
    (∀ x kk, decode 0x00E0#16 ≠ .ok (.rnd x kk)) ∧ ∀ x kk, Instr.cls ≠ .rnd x kk :=
  ⟨by decide, (fun _ _ h => by cases h), fun _ _ h => nomatch h⟩
theorem witness_SoundTimerIsNeverRead : exec .ret State.reset = .fault .stackUnderflow ∧
    (∃ t, exec (.ldVxDt 0x2) State.reset = .next t) ∧ ∃ t, execOn 0xA7 (.rnd 0x2 0xFF) State.reset = .next t :=
  ⟨rfl, ⟨_, rfl⟩, _, rfl⟩
theorem witness_CallThenRetReturns : ({ State.reset with sp := 15 } : State).sp.val ≤ 15 := by decide
theorem witness_StoredWordIsFetched : ∃ t u : State, exec (.sri 0x1) (withI 0x208 [(0, 0x12), (1, 0x08)]) = .next t ∧ u.mem = t.mem ∧
    (0x0#4).toNat + 1 = (0x1#4).toNat ∧ (0x1#4).toNat ≤ (0x1#4).toNat ∧
    u.pc.toNat = (withI 0x208 [(0, 0x12), (1, 0x08)]).ea (0x0#4).toNat :=
  ⟨_, { State.reset with mem := [(0x208, 0x12), (0x209, 0x08)], pc := 0x208 }, rfl, by decide⟩
theorem witness_StepKeepsInvariant : (State.reset.withFetchWord 16 0x2300).Inv ∧
    ∃ t, step (State.reset.withFetchWord 16 0x2300) = .next t :=
  ⟨⟨by decide, by decide, by decide⟩, _, rfl⟩
theorem witness_OperationsKeepInvariant : BlockInv none ∧
    serve none (.initialise []) = some (.initialised, some State.reset.toArch) ∧
    serve (some State.reset.toArch) (.step 0xA7) = some (.stepped (.fault .illegalOpcode), some State.reset.toArch) := ⟨trivial, rfl, rfl⟩
theorem witness_ReachableMeetsInvariant : ∃ m, serveAll none [.initialise [0xC0, 0xFF], .step 0xA7, .decrementTimers] = some (some m) :=
  ⟨_, rfl⟩
theorem witness_ElementsDetermineState : State.reset.mem.wf ∧ (poke State.reset 0x300 0x01).mem.wf ∧
    Element.value (.mem 0x300) State.reset ≠ Element.value (.mem 0x300) (poke State.reset 0x300 0x01) ∧
    ∀ e : Element, e ≠ .draws → e.value State.reset = e.value { State.reset with draws := 5 } :=
  ⟨by decide, by decide, by decide, fun e h => by cases e <;> first | rfl | exact absurd rfl h⟩
theorem witness_InitialisedStateByTable : (List.replicate 3584 (0xAB : Byte)).length ≤ 3584 ∧ ([] : List Byte).length ≤ 3584 := by
  rw [List.length_replicate]; decide
theorem witness_RomTooLargeConstructsNoMachine : (List.replicate 3585 (0xAB : Byte)).length > 3584 := by
  rw [List.length_replicate]; decide
theorem witness_InitialiseReplacesTheMachine : ∀ rom, Operation.step 0 ≠ .initialise rom := fun _ h => nomatch h

end Sys2Proof.Tests
end

section
/-! SUPPORT. The frame of each shared operation over the state, and from these the frame of every instruction
(00_scope.md R6). -/

namespace Sys2Proof.Machine

/-! ## Frames as relations -/

theorem Frame.refl (W : Element → Prop) (s : State) : Frame W s s := fun _ _ => rfl

/-- A frame may be stated with more elements written. -/
theorem Frame.mono {W W' : Element → Prop} {s t : State} (h : Frame W s t) (hW : ∀ e, W e → W' e) : Frame W' s t :=
  fun e he => h e fun hw => he (hW e hw)

/-- Two updates one after the other write what either of them writes. -/
theorem Frame.trans {W W' : Element → Prop} {s t u : State} (h : Frame W s t) (h' : Frame W' t u) :
    Frame (fun e => W e ∨ W' e) s u :=
  fun e he => (h' e fun hw => he (Or.inr hw)).trans (h e fun hw => he (Or.inl hw))

/-- The frame of an update is the frame of a handler that completes with it. -/
theorem Frame.of_next {W : Element → Prop} {s t u : State} (h : Frame W s u) (ht : (.next u : Result) = .next t) :
    Frame W s t := by
  cases ht; exact h

/-! ## The frame of each update of the state -/

namespace State

variable (s : State)

theorem frame_setReg (r : RegNum) (b : Byte) : Frame (fun e => e = .v r) s (s.setReg r b) := by
  intro e he
  cases e with
  | v q =>
    have hq : q ≠ r := fun h => he (congrArg Element.v h)
    simp only [Element.value, reg_setReg, if_neg hq]
  | _ => rfl

theorem frame_setFlagThenReg (x : RegNum) (flag result : Byte) :
    Frame (fun e => e = .v vf ∨ e = .v x) s (s.setFlagThenReg x flag result) :=
  (s.frame_setReg vf flag).trans (frame_setReg _ x result)

theorem frame_setI (w : Word) : Frame (fun e => e = .i) s { s with i := w } := by
  intro e he
  cases e with
  | i => exact absurd rfl he
  | _ => rfl

theorem frame_setDt (b : Byte) : Frame (fun e => e = .dt) s { s with dt := b } := by
  intro e he
  cases e with
  | dt => exact absurd rfl he
  | _ => rfl

theorem frame_setSt (b : Byte) : Frame (fun e => e = .st) s { s with st := b } := by
  intro e he
  cases e with
  | st => exact absurd rfl he
  | _ => rfl

theorem frame_draw : Frame (fun e => e = .draws) s s.draw.2 := by
  intro e he
  cases e with
  | draws => exact absurd rfl he
  | _ => rfl

theorem frame_jump (w : Word) : Frame (fun e => e = .pc) s (s.jump w) := by
  intro e he
  cases e with
  | pc => exact absurd rfl he
  | _ => rfl

theorem frame_retreat : Frame (fun e => e = .pc) s s.retreat := s.frame_jump (s.pc - 2)

theorem frame_skipIf (c : Bool) : Frame (fun e => e = .pc) s (s.skipIf c) := by
  cases c with
  | false => exact .refl _ s
  | true => exact s.frame_jump (s.pc + 2)

/-- A push writes SP and the slot that SP named before it (10_state.md R18). -/
theorem frame_push {w : Word} {t : State} (h : s.push w = some t) :
    Frame (fun e => e = .sp ∨ ∃ k : Fin 16, k.val = s.sp.val ∧ e = .stack k) s t := by
  obtain ⟨hs, rfl⟩ := s.push_eq_some h
  intro e he
  cases e with
  | sp => exact absurd (Or.inl rfl) he
  | stack k =>
    have hk : s.sp.val ≠ k.val := fun h => he (Or.inr ⟨k, h.symm, rfl⟩)
    exact congrArg BitVec.toNat (Vector.getElem_set_ne hs k.isLt hk)
  | _ => rfl

/-- A pop writes SP only: the slot keeps its contents (10_state.md R18). -/
theorem frame_pop {w : Word} {t : State} (h : s.pop = some (w, t)) : Frame (fun e => e = .sp) s t := by
  obtain ⟨-, -, rfl⟩ := s.pop_eq_some h
  intro e he
  cases e with
  | sp => exact absurd rfl he
  | _ => rfl

/-- Replacing the framebuffer writes the pixels in which the two framebuffers differ. -/
theorem frame_setFb (fb : Framebuffer) :
    Frame (fun e => ∃ px py, e = .pixel px py ∧ fb.pixel px.val py.val ≠ s.fb.pixel px.val py.val) s
      { s with fb := fb } := by
  intro e he
  cases e with
  | pixel px py => exact congrArg Bool.toNat (not_not.1 fun hne => he ⟨px, py, rfl, hne⟩)
  | _ => rfl

/-- A completed store writes the addresses of its bytes (20_memory.md R48). -/
theorem frame_storeBytes {a : Nat} {bs : List Byte} {t : State} (h : s.storeBytes a bs = .next t) :
    Frame (fun e => ∃ k, k < bs.length ∧ e = .mem (a + k)) s t := by
  by_cases hin : InMemory a bs.length
  · rw [s.storeBytes_of_inMemory hin] at h
    refine Frame.of_next (fun e he => ?_) h
    cases e with
    | mem b =>
      have hout : b < a ∨ a + bs.length ≤ b := by
        by_contra hb
        exact he ⟨b - a, by omega, congrArg Element.mem (by omega)⟩
      exact congrArg BitVec.toNat (Memory.read_writeBytes_outside s.mem a b bs hout)
    | _ => rfl
  · rw [s.storeBytes_of_not_inMemory hin] at h; cases h

/-- A completed load of `n` bytes writes the registers below V`n` (43_index_memory.md R145). -/
theorem frame_loadRegs {a n : Nat} {t : State} (h : s.loadRegs a n = .next t) :
    Frame (fun e => ∃ r : RegNum, r.toNat < n ∧ e = .v r) s t := by
  by_cases hin : InMemory a n
  · rw [s.loadRegs_of_inMemory hin] at h
    refine Frame.of_next (fun e he => ?_) h
    cases e with
    | v r =>
      have hr : ¬ (0 ≤ r.toNat ∧ r.toNat - 0 < (s.mem.readBytes a n).length) := by
        rintro ⟨-, hlt⟩
        exact he ⟨r, by simpa using hlt, rfl⟩
      exact congrArg BitVec.toNat ((getElem_setRegsFrom s.v 0 _ r.toNat r.isLt).trans (dif_neg hr))
    | _ => rfl
  · rw [s.loadRegs_of_not_inMemory hin] at h; cases h

end State

/-! ## The frames of the handlers built from several updates -/

variable {s t : State}

theorem execCls_frame (h : execCls s = .next t) : Frame (fun e => ∃ px py, e = .pixel px py) s t :=
  ((s.frame_setFb Framebuffer.clear).mono fun _ ⟨px, py, he, _⟩ => ⟨px, py, he⟩).of_next h

theorem execRet_frame (h : execRet s = .next t) : Frame (fun e => e = .pc ∨ e = .sp) s t := by
  unfold execRet at h
  split at h
  case h_1 w u hpop => exact (((s.frame_pop hpop).trans (u.frame_jump w)).mono fun _ => Or.symm).of_next h
  case h_2 => cases h

/-- CALL writes the PC, SP and the slot that SP named before it (41_control_flow.md R103). -/
theorem execCall_frame {nnn : Addr} (h : execCall nnn s = .next t) :
    Frame (fun e => e = .pc ∨ e = .sp ∨ ∃ k : Fin 16, k.val = s.sp.val ∧ e = .stack k) s t := by
  unfold execCall at h
  split at h
  case h_1 u hpush =>
    exact (((s.frame_push hpush).trans (u.frame_jump (zextAddr nnn))).mono fun _ => Or.symm).of_next h
  case h_2 => cases h

theorem execRnd_frame {x : RegNum} {kk : Byte} (h : execRnd x kk s = .next t) :
    Frame (fun e => e = .v x ∨ e = .draws) s t :=
  ((s.frame_draw.trans (State.frame_setReg _ x (s.draw.1 &&& kk))).mono fun _ => Or.symm).of_next h

/-- DRW writes VF and, of the pixels, those it draws over (44_display.md R151). -/
theorem execDrw_frame {x y : RegNum} {n : Nibble} (h : execDrw x y n s = .next t) :
    Frame (fun e => e = .v vf ∨ ∃ px py, e = .pixel px py ∧ DrawnOver s x y n px.val py.val) s t := by
  have hdrawn : ∀ (px : Fin 64) (py : Fin 32),
      (s.blit x y n).1.pixel px.val py.val ≠ s.fb.pixel px.val py.val → DrawnOver s x y n px.val py.val := by
    intro px py hne
    by_contra hnot
    refine hne ((s.blit_pixel x y n px.val py.val).2 ?_)
    rwa [Nat.mod_eq_of_lt px.isLt, Nat.mod_eq_of_lt py.isLt]
  unfold execDrw at h
  split at h
  · refine (((s.frame_setFb _).trans (State.frame_setReg _ vf _)).mono fun e he => ?_).of_next h
    rcases he with ⟨px, py, rfl, hne⟩ | rfl
    · exact Or.inr ⟨px, py, rfl, hdrawn px py hne⟩
    · exact Or.inl rfl
  · cases h

/-- The key wait writes the PC while no key is down, else Vx (45_keys_timers.md R162). -/
theorem execLdk_frame {x : RegNum} (h : execLdk x s = .next t) :
    Frame (fun e => (s.lowestKey = none ∧ e = .pc) ∨ (s.lowestKey ≠ none ∧ e = .v x)) s t := by
  unfold execLdk at h
  split at h
  case h_1 hk => exact (s.frame_retreat.mono fun _ he => Or.inl ⟨hk, he⟩).of_next h
  case h_2 k hk => exact ((s.frame_setReg x _).mono fun _ he => Or.inr ⟨by simp [hk], he⟩).of_next h

theorem execSbcd_frame {x : RegNum} (h : execSbcd x s = .next t) :
    Frame (fun e => ∃ k, k < 3 ∧ e = .mem (s.ea k)) s t :=
  s.frame_storeBytes h

theorem execSri_frame {x : RegNum} (h : execSri x s = .next t) :
    Frame (fun e => ∃ k, k ≤ x.toNat ∧ e = .mem (s.ea k)) s t := by
  refine (s.frame_storeBytes h).mono fun e ⟨k, hk, he⟩ => ⟨k, ?_, he⟩
  rw [State.regsUpTo_length] at hk
  exact Nat.le_of_lt_succ hk

theorem execLir_frame {x : RegNum} (h : execLir x s = .next t) :
    Frame (fun e => ∃ r : RegNum, r.toNat ≤ x.toNat ∧ e = .v r) s t :=
  (s.frame_loadRegs h).mono fun _ ⟨r, hr, he⟩ => ⟨r, Nat.le_of_lt_succ hr, he⟩

end Sys2Proof.Machine

namespace Sys2Proof

open Sys2Proof.Machine

/-- Settles O41: each handler is one of the updates above, or a few in sequence, and its frame is theirs. -/
theorem everyInstructionKeepsItsFrame : Obligations.EveryInstructionKeepsItsFrame := by
  unfold Obligations.EveryInstructionKeepsItsFrame
  intro i s t h
  cases i with
  | sys => cases h
  | cls => exact execCls_frame h
  | ret => exact execRet_frame h
  | call => exact execCall_frame h
  | jp | jp0 => exact (s.frame_jump _).of_next h
  | seKk | sneKk | seVy | sneVy | skp | sknp => exact (s.frame_skipIf _).of_next h
  | ld x | addKk x | ldVy x | or x | and x | xor x | ldVxDt x => exact (s.frame_setReg x _).of_next h
  | add x | sub x | shr x | subn x | shl x => exact (s.frame_setFlagThenReg x _ _).of_next h
  | rnd => exact execRnd_frame h
  | ldi | addi | ldf => exact (s.frame_setI _).of_next h
  | ldDtVx => exact (s.frame_setDt _).of_next h
  | ldStVx => exact (s.frame_setSt _).of_next h
  | ldk => exact execLdk_frame h
  | drw => exact execDrw_frame h
  | sbcd => exact execSbcd_frame h
  | sri => exact execSri_frame h
  | lir => exact execLir_frame h

end Sys2Proof
end

section
/-! SUPPORT. The PC after a completed step, by the table of 10_state.md R15. -/

namespace Sys2Proof.Machine

/-! ## The PC under each way of setting it -/

theorem toNat_zextAddr (nnn : Addr) : (zextAddr nnn).toNat = nnn.toNat := by
  have := nnn.isLt
  rw [zextAddr, BitVec.toNat_setWidth]; omega

/-- JP V0's target, which never wraps (41_control_flow.md R108). -/
theorem toNat_zextAddr_add_zextByte (nnn : Addr) (b : Byte) :
    (zextAddr nnn + zextByte b).toNat = nnn.toNat + b.toNat := by
  have hn := nnn.isLt
  have hb := b.isLt
  rw [BitVec.toNat_add, toNat_zextAddr, zextByte, BitVec.toNat_setWidth]; omega

theorem toNat_add_two {w : Word} (h : w.toNat < 0xFFFE) : (w + 2).toNat = w.toNat + 2 := by
  bv_omega

namespace State

variable {s : State}

/-- A fetch reads two bytes of memory, so the advance after it does not wrap (20_memory.md R44). -/
theorem pc_le_of_fetch {op : Word} (h : s.fetch = some op) : s.pc.toNat ≤ 0xFFE := by
  by_contra hpc
  have hnone : s.fetch = none := s.fetch_eq_none.2 (by omega)
  simp [hnone] at h

theorem toNat_advance_pc (hpc : s.pc.toNat ≤ 0xFFE) : s.advance.pc.toNat = s.pc.toNat + 2 :=
  toNat_add_two (by omega)

/-- A skip after the advance (41_control_flow.md R109): 4 bytes on where the condition holds, else 2. -/
theorem toNat_skipIf_advance_pc (hpc : s.pc.toNat ≤ 0xFFE) (c : Bool) :
    (s.advance.skipIf c).pc.toNat = if c = true then s.pc.toNat + 4 else s.pc.toNat + 2 := by
  have hadv := toNat_advance_pc hpc
  cases c with
  | false => exact hadv
  | true =>
    rw [skipIf_pc, if_pos rfl, if_pos rfl, toNat_add_two (by omega), hadv]

/-- The key wait's step back undoes the advance (45_keys_timers.md R162). -/
theorem retreat_advance_pc : s.advance.retreat.pc = s.pc := BitVec.add_sub_cancel s.pc 2

@[simp] theorem keyDown_advance (k : Nibble) : s.advance.keyDown k = s.keyDown k := rfl

@[simp] theorem lowestKey_advance : s.advance.lowestKey = s.lowestKey := rfl

end State

/-! ## The PC after each instruction (10_state.md R15) -/

section
variable {s t : State}

/-- A completed CALL (41_control_flow.md R103). -/
theorem execCall_eq_next {nnn : Addr} (h : execCall nnn s = .next t) :
    ∃ hs : s.sp.val < 16, t = { s with
      stack := s.stack.set s.sp.val s.pc hs, sp := ⟨s.sp.val + 1, by omega⟩, pc := zextAddr nnn } := by
  unfold execCall at h
  split at h
  case h_1 u hpush =>
    obtain ⟨hs, rfl⟩ := s.push_eq_some hpush
    cases h; exact ⟨hs, rfl⟩
  case h_2 => cases h

/-- A completed RET (41_control_flow.md R101). -/
theorem execRet_eq_next (h : execRet s = .next t) :
    ∃ _ : 0 < s.sp.val, t = { s with
      sp := ⟨s.sp.val - 1, by omega⟩, pc := s.stack[s.sp.val - 1]'(by omega) } := by
  unfold execRet at h
  split at h
  case h_1 w u hpop =>
    obtain ⟨hs, rfl, rfl⟩ := s.pop_eq_some hpop
    cases h; exact ⟨hs, rfl⟩
  case h_2 => cases h

/-- An instruction that does not set the PC leaves it where the advance put it. -/
theorem exec_pc_of_not_writes {i : Instr} (h : exec i s = .next t) (hpc : ¬ Writes i s .pc) : t.pc = s.pc :=
  BitVec.eq_of_toNat_eq (everyInstructionKeepsItsFrame i s t h .pc hpc)

theorem execLdk_pc {x : RegNum} (hpc : s.pc.toNat ≤ 0xFFE) (h : exec (.ldk x) s.advance = .next t) :
    t.pc.toNat = if s.lowestKey = none then s.pc.toNat else s.pc.toNat + 2 := by
  cases hk : s.lowestKey with
  | none =>
    have hwait : exec (.ldk x) s.advance = .next s.advance.retreat := by
      simp only [exec, execLdk, State.lowestKey_advance, hk]
    rw [hwait] at h
    cases h; exact congrArg BitVec.toNat State.retreat_advance_pc
  | some k =>
    have hkeep : ¬ Writes (.ldk x) s.advance .pc := by simp [Writes, hk]
    rw [exec_pc_of_not_writes h hkeep, State.toNat_advance_pc hpc]; rfl

/-- The PC that an instruction leaves after the advance is that of the table (10_state.md R15). -/
theorem exec_pc_by_table {i : Instr} (hpc : s.pc.toNat ≤ 0xFFE) (h : exec i s.advance = .next t) :
    t.pc.toNat = pcAfter i s.pc.toNat s := by
  have hskip := State.toNat_skipIf_advance_pc hpc
  cases i with
  | sys => cases h
  | ret =>
    obtain ⟨hs, rfl⟩ := execRet_eq_next h
    rw [pcAfter, dif_pos (show 0 < s.sp.val from hs)]; rfl
  | jp nnn => cases h; exact toNat_zextAddr nnn
  | call nnn => obtain ⟨-, rfl⟩ := execCall_eq_next h; exact toNat_zextAddr nnn
  | jp0 nnn => cases h; exact toNat_zextAddr_add_zextByte nnn (s.reg 0x0#4)
  | seKk x kk => cases h; simpa [pcAfter] using hskip (s.reg x == kk)
  | sneKk x kk => cases h; simpa [pcAfter] using hskip (s.reg x != kk)
  | seVy x y => cases h; simpa [pcAfter] using hskip (s.reg x == s.reg y)
  | sneVy x y => cases h; simpa [pcAfter] using hskip (s.reg x != s.reg y)
  | skp x => cases h; exact hskip (s.keyDown (lowNibble (s.reg x)))
  | sknp x => cases h; simpa [pcAfter] using hskip (!s.keyDown (lowNibble (s.reg x)))
  | ldk => exact execLdk_pc hpc h
  | _ => rw [exec_pc_of_not_writes h (by simp [Writes]), State.toNat_advance_pc hpc]; rfl

end

end Sys2Proof.Machine

namespace Sys2Proof

open Sys2Proof.Machine

/-- Settles O40: the fetch bounds the PC, so the advance does not wrap, and each instruction then leaves the table's PC. -/
theorem pcAfterStepByTable : Obligations.PcAfterStepByTable := by
  unfold Obligations.PcAfterStepByTable
  intro s t i op hfetch hdecode hstep
  rw [step_of_fetch hfetch, hdecode] at hstep
  exact exec_pc_by_table (State.pc_le_of_fetch hfetch) hstep

end Sys2Proof
end

section
/-! SUPPORT. The invariant of 10_state.md R33: it holds after `initialize`, and every operation of the driver keeps it. -/

namespace Sys2Proof.Machine

/-! ## What each instruction does to the PC, the stack and memory -/

/-- Between steps the table leaves the PC at most 0x10FE, the largest target of JP V0 (10_state.md R33). -/
theorem pcAfter_le {s : State} (hinv : s.Inv) (hpc : s.pc.toNat ≤ 0xFFE) (i : Instr) :
    pcAfter i s.pc.toNat s ≤ 0x10FE := by
  cases i with
  | jp nnn | call nnn => have := nnn.isLt; simp only [pcAfter]; omega
  | jp0 nnn =>
    have hn := nnn.isLt
    have hv := (s.reg 0x0#4).isLt
    simp only [pcAfter]; omega
  | ret =>
    simp only [pcAfter]
    split
    case isTrue hs =>
      have hslot := hinv.stack_le ⟨s.sp.val - 1, by omega⟩ (Nat.sub_lt hs Nat.one_pos)
      exact Nat.le_trans hslot (by decide)
    case isFalse => omega
  | seKk | sneKk | seVy | sneVy | skp | sknp | ldk => simp only [pcAfter]; split <;> omega
  | _ => simp only [pcAfter]; omega

/-- The invariant reads the PC, the stack and memory only. -/
theorem Arch.Inv.of_same {m m' : Arch} (hinv : m.Inv) (hpc : m'.pc.toNat ≤ 0x10FE) (hstack : m'.stack = m.stack)
    (hsp : m'.sp = m.sp) (hmem : m'.mem = m.mem) : m'.Inv := by
  refine ⟨hpc, ?_, ?_⟩
  · rw [hsp, hstack]; exact hinv.stack_le
  · rw [hmem]; exact hinv.mem_wf

section
variable {s t : State}

theorem State.advance_inv (hinv : s.Inv) (hpc : s.pc.toNat ≤ 0xFFE) : s.advance.Inv := by
  have hadv := State.toNat_advance_pc hpc
  exact hinv.of_same (by omega) rfl rfl rfl

/-- CALL keeps the invariant: the address it pushes is the PC (41_control_flow.md R103). -/
theorem execCall_keeps_inv {nnn : Addr} (hinv : s.Inv) (hpc : s.pc.toNat ≤ 0x1000)
    (hpc' : t.pc.toNat ≤ 0x10FE) (h : execCall nnn s = .next t) : t.Inv := by
  obtain ⟨hs, rfl⟩ := execCall_eq_next h
  refine ⟨hpc', fun k hk => ?_, hinv.mem_wf⟩
  by_cases hk' : k.val = s.sp.val
  · simpa [hk'] using hpc
  · have hslot := hinv.stack_le k (Nat.lt_of_le_of_ne (Nat.le_of_lt_succ hk) hk')
    simpa [Vector.getElem_set_ne hs k.isLt (Ne.symm hk')] using hslot

/-- RET keeps the invariant: of the slots it leaves held, each was held before (41_control_flow.md R101). -/
theorem execRet_keeps_inv (hinv : s.Inv) (hpc' : t.pc.toNat ≤ 0x10FE) (h : execRet s = .next t) : t.Inv := by
  obtain ⟨_, rfl⟩ := execRet_eq_next h
  exact ⟨hpc', fun k hk => hinv.stack_le k (Nat.lt_of_lt_of_le hk (Nat.sub_le _ _)), hinv.mem_wf⟩

/-- A completed store keeps the invariant: the bytes written leave memory in its canonical form. -/
theorem State.storeBytes_keeps_inv {a : Nat} {bs : List Byte} (hinv : s.Inv) (h : s.storeBytes a bs = .next t) :
    t.Inv := by
  by_cases hin : InMemory a bs.length
  · rw [s.storeBytes_of_inMemory hin] at h
    cases h; exact ⟨hinv.pc_le, hinv.stack_le, Memory.wf_writeBytes hinv.mem_wf a bs⟩
  · rw [s.storeBytes_of_not_inMemory hin] at h; cases h

theorem State.loadRegs_keeps_inv {a n : Nat} (hinv : s.Inv) (h : s.loadRegs a n = .next t) : t.Inv := by
  by_cases hin : InMemory a n
  · rw [s.loadRegs_of_inMemory hin] at h
    cases h; exact hinv.of_same hinv.pc_le rfl rfl rfl
  · rw [s.loadRegs_of_not_inMemory hin] at h; cases h

theorem execDrw_keeps_inv {x y : RegNum} {n : Nibble} (hinv : s.Inv) (h : execDrw x y n s = .next t) : t.Inv := by
  unfold execDrw at h
  split at h
  · cases h; exact hinv.of_same hinv.pc_le rfl rfl rfl
  · cases h

theorem execLdk_keeps_inv {x : RegNum} (hinv : s.Inv) (hpc' : t.pc.toNat ≤ 0x10FE) (h : execLdk x s = .next t) :
    t.Inv := by
  unfold execLdk at h
  split at h <;> cases h <;> exact hinv.of_same hpc' rfl rfl rfl

/-! ## The step -/

/-- An instruction executed after the advance keeps the invariant: the table bounds the PC, CALL pushes at most 0x1000, and
a store keeps memory's form. -/
theorem exec_keeps_inv {i : Instr} (hinv : s.Inv) (hpc : s.pc.toNat ≤ 0xFFE) (h : exec i s.advance = .next t) :
    t.Inv := by
  have hpc' : t.pc.toNat ≤ 0x10FE := exec_pc_by_table hpc h ▸ pcAfter_le hinv hpc i
  have hadv : s.advance.Inv := State.advance_inv hinv hpc
  cases i with
  | sys => cases h
  | call => exact execCall_keeps_inv hadv (by rw [State.toNat_advance_pc hpc]; omega) hpc' h
  | ret => exact execRet_keeps_inv hadv hpc' h
  | sbcd | sri => exact State.storeBytes_keeps_inv hadv h
  | lir => exact State.loadRegs_keeps_inv hadv h
  | drw => exact execDrw_keeps_inv hadv h
  | ldk => exact execLdk_keeps_inv hadv hpc' h
  | seKk | sneKk | seVy | sneVy | skp | sknp =>
    cases h; exact hadv.of_same hpc' (State.skipIf_stack _ _) (State.skipIf_sp _ _) (State.skipIf_mem _ _)
  | _ => cases h; exact hadv.of_same hpc' rfl rfl rfl

/-- The same with the random byte given, which RND writes to a register only (10_state.md R31). -/
theorem execOn_keeps_inv {rnd : Byte} {i : Instr} (hinv : s.Inv) (hpc : s.pc.toNat ≤ 0xFFE)
    (h : execOn rnd i s.advance = .next t) : t.Inv := by
  cases i with
  | rnd =>
    have hadv : s.advance.Inv := State.advance_inv hinv hpc
    cases h; exact hadv.of_same hadv.pc_le rfl rfl rfl
  | _ => rw [execOn_of_ne_rnd rnd _ _ (by simp)] at h; exact exec_keeps_inv hinv hpc h

/-- Everything a completed step can have been, whatever runs the decoded instruction (40_step_cycle.md R80). -/
theorem State.stepBy_eq_next {run : Instr → State → Result} (h : s.stepBy run = .next t) :
    ∃ op i, s.fetch = some op ∧ decode op = .ok i ∧ run i s.advance = .next t := by
  cases hf : s.fetch with
  | none => rw [s.stepBy_of_no_fetch run hf] at h; cases h
  | some op =>
    rw [State.stepBy_of_fetch run hf] at h
    split at h
    case h_1 => cases h
    case h_2 i hd => exact ⟨op, i, rfl, hd, h⟩

theorem State.commit_keeps_inv {r : Result} (hinv : s.Inv) (hr : ∀ t, r = .next t → t.Inv) : (s.commit r).2.Inv := by
  cases r with
  | next t => exact hr t rfl
  | fault | refused => exact hinv

end

/-- The step at the port keeps the invariant, whatever its random byte. -/
theorem Arch.step_keeps_inv {m : Arch} (hinv : m.Inv) (rnd : Byte) : (m.step rnd).2.Inv := by
  refine State.commit_keeps_inv (s := { m with draws := 0 }) hinv fun t h => ?_
  obtain ⟨op, i, hfetch, -, hrun⟩ := State.stepBy_eq_next h
  exact execOn_keeps_inv hinv (State.pc_le_of_fetch hfetch) hrun

/-! ## The other operations (10_state.md R29) -/

/-- A machine with an image that fits in memory and everything else as after reset meets the invariant (10_state.md R32). -/
theorem reset_with_image_inv {rom : List Byte} (hlen : rom.length ≤ Config.romMax) :
    Arch.Inv { State.reset.toArch with mem := Memory.image Config.romBase rom } where
  pc_le := show State.reset.pc.toNat ≤ 0x10FE by decide
  stack_le k hk := absurd hk (Nat.not_lt_zero k.val)
  mem_wf := Memory.wf_image _ _ (by simp only [Config.romMax, Config.memSize, Config.romBase] at *; omega)

theorem Arch.initialise_inv {rom : List Byte} {m : Arch} (h : Arch.initialise rom = .ok m) : m.Inv := by
  unfold Arch.initialise at h
  split at h
  case isTrue => cases h
  case isFalse hlen => cases h; exact reset_with_image_inv (Nat.le_of_not_lt hlen)

theorem serveInitialise_blockInv (rom : List Byte) : BlockInv (serveInitialise rom).2 := by
  unfold serveInitialise
  split
  case h_1 m h => exact Arch.initialise_inv h
  case h_2 => trivial

theorem Arch.serve_blockInv {m : Arch} (hinv : m.Inv) (op : Operation) : BlockInv (m.serve op).2 := by
  cases op with
  | initialise rom => exact serveInitialise_blockInv rom
  | step rnd => exact Arch.step_keeps_inv hinv rnd
  | decrementTimers | setKeys => exact hinv.of_same hinv.pc_le rfl rfl rfl
  | readFramebuffer | readSound => exact hinv

theorem serve_keeps_blockInv {b b' : Option Arch} {op : Operation} {r : Response} (hb : BlockInv b)
    (h : serve b op = some (r, b')) : BlockInv b' := by
  cases b with
  | some m =>
    have hserve : m.serve op = (r, b') := Option.some.inj h
    have hinv := Arch.serve_blockInv hb op
    rwa [hserve] at hinv
  | none =>
    cases op with
    | initialise rom =>
      have hserve : serveInitialise rom = (r, b') := Option.some.inj h
      have hinv := serveInitialise_blockInv rom
      rwa [hserve] at hinv
    | _ => cases h

/-- A sequence of operations keeps the invariant, operation by operation. -/
theorem serveAll_keeps_blockInv {ops : List Operation} {b b' : Option Arch} (hb : BlockInv b)
    (h : serveAll b ops = some b') : BlockInv b' := by
  induction ops generalizing b with
  | nil => cases h; exact hb
  | cons op ops ih =>
    unfold serveAll at h
    split at h
    case h_1 r c hserve => exact ih (serve_keeps_blockInv hb hserve) h
    case h_2 => cases h

/-- With no machine only `initialize` has a transition (10_state.md R34). -/
theorem serve_none_of_ne_initialise {op : Operation} (h : ∀ rom, op ≠ .initialise rom) : serve none op = none := by
  cases op with
  | initialise rom => exact absurd rfl (h rom)
  | _ => rfl

/-- `initialize` is the same operation on every block (70_reset_and_hazards.md R206). -/
theorem serve_initialise (b : Option Arch) (rom : List Byte) :
    serve b (.initialise rom) = some (serveInitialise rom) := by
  cases b <;> rfl

end Sys2Proof.Machine

namespace Sys2Proof

open Sys2Proof.Machine

/-- Settles O48: a completed step has fetched, so the PC was at most 0xFFE, and no instruction breaks the bounds then. -/
theorem stepKeepsInvariant : Obligations.StepKeepsInvariant := by
  unfold Obligations.StepKeepsInvariant
  intro s t hinv hstep
  obtain ⟨op, i, hfetch, -, hexec⟩ := step_eq_next hstep
  exact exec_keeps_inv hinv (State.pc_le_of_fetch hfetch) hexec

/-- Settles O50, operation by operation. -/
theorem operationsKeepInvariant : Obligations.OperationsKeepInvariant := by
  unfold Obligations.OperationsKeepInvariant
  intro b b' op r hb hserve
  exact serve_keeps_blockInv hb hserve

/-- Settles O51, by induction on the operations from the block that holds no machine. -/
theorem reachableMeetsInvariant : Obligations.ReachableMeetsInvariant := by
  unfold Obligations.ReachableMeetsInvariant
  intro ops m h
  exact serveAll_keeps_blockInv (b := none) trivial h

/-- Settles O49: the state after reset is the one that the empty image gives. -/
theorem resetMeetsInvariant : Obligations.ResetMeetsInvariant := by
  unfold Obligations.ResetMeetsInvariant
  exact reset_with_image_inv (rom := []) (by decide)

/-- Settles O56: `initialize` is the one operation that does not read the block. -/
theorem initialiseReplacesTheMachine : Obligations.InitialiseReplacesTheMachine := by
  unfold Obligations.InitialiseReplacesTheMachine
  exact ⟨fun _ hop => serve_none_of_ne_initialise hop,
    fun b rom => (serve_initialise b rom).trans (serve_initialise none rom).symm⟩

end Sys2Proof
end

section
/-! SUPPORT. No instruction reads ST: replacing it before an instruction replaces it, at most, after (10_state.md R21). -/

namespace Sys2Proof.Machine

/-! ## Replacing ST before an operation -/

section
variable (s : State) (b : Byte)

theorem State.push_setSt (w : Word) :
    State.push { s with st := b } w = (s.push w).map fun t => { t with st := b } := by
  unfold State.push
  rw [apply_dite (Option.map _)]; rfl

theorem State.pop_setSt :
    State.pop { s with st := b } = s.pop.map fun p => (p.1, { p.2 with st := b }) := by
  unfold State.pop
  rw [apply_ite (Option.map _)]; rfl

theorem State.skipIf_setSt (c : Bool) : State.skipIf { s with st := b } c = { s.skipIf c with st := b } := by
  cases c <;> rfl

theorem State.storeBytes_setSt (a : Nat) (bs : List Byte) :
    State.storeBytes { s with st := b } a bs = mapNext (fun t => { t with st := b }) (s.storeBytes a bs) := by
  unfold State.storeBytes
  rw [apply_ite (mapNext _)]; rfl

theorem State.loadRegs_setSt (a n : Nat) :
    State.loadRegs { s with st := b } a n = mapNext (fun t => { t with st := b }) (s.loadRegs a n) := by
  unfold State.loadRegs
  rw [apply_ite (mapNext _)]; rfl

theorem execCall_setSt (nnn : Addr) :
    execCall nnn { s with st := b } = mapNext (fun t => { t with st := b }) (execCall nnn s) := by
  unfold execCall
  rw [State.push_setSt]
  cases s.push s.pc <;> rfl

theorem execRet_setSt : execRet { s with st := b } = mapNext (fun t => { t with st := b }) (execRet s) := by
  unfold execRet
  rw [State.pop_setSt]
  cases s.pop <;> rfl

theorem execDrw_setSt (x y : RegNum) (n : Nibble) :
    execDrw x y n { s with st := b } = mapNext (fun t => { t with st := b }) (execDrw x y n s) := by
  unfold execDrw
  rw [apply_ite (mapNext _)]; rfl

theorem execLdk_setSt (x : RegNum) :
    execLdk x { s with st := b } = mapNext (fun t => { t with st := b }) (execLdk x s) := by
  have hkey : State.lowestKey { s with st := b } = s.lowestKey := rfl
  unfold execLdk
  rw [hkey]
  cases s.lowestKey <;> rfl

/-- Replacing ST before an instruction gives the same outcome with ST replaced, by the same byte or, under LD ST, Vx, by the
byte written anyway. -/
theorem exec_setSt (i : Instr) :
    ∃ c : Byte, exec i { s with st := b } = mapNext (fun t => { t with st := c }) (exec i s) := by
  cases i with
  | ldStVx x => exact ⟨s.reg x, rfl⟩
  | call nnn => exact ⟨b, execCall_setSt s b nnn⟩
  | ret => exact ⟨b, execRet_setSt s b⟩
  | drw x y n => exact ⟨b, execDrw_setSt s b x y n⟩
  | ldk x => exact ⟨b, execLdk_setSt s b x⟩
  | sbcd | sri => exact ⟨b, s.storeBytes_setSt b _ _⟩
  | lir => exact ⟨b, s.loadRegs_setSt b _ _⟩
  | seKk | sneKk | seVy | sneVy | skp | sknp => exact ⟨b, congrArg Host.Outcome.next (s.skipIf_setSt b _)⟩
  | _ => exact ⟨b, rfl⟩

theorem execOn_setSt (rnd : Byte) (i : Instr) :
    ∃ c : Byte, execOn rnd i { s with st := b } = mapNext (fun t => { t with st := c }) (execOn rnd i s) := by
  cases i with
  | rnd => exact ⟨b, rfl⟩
  | _ => simpa only [execOn] using exec_setSt s b _

end

/-- Outcomes that agree but for ST agree in the fault, and their next states in every element but ST. -/
theorem sameButSt_of_mapNext {r r' : Result} {c : Byte} (h : r' = mapNext (fun t => { t with st := c }) r) :
    (∀ f : Fault, r = .fault f → r' = .fault f) ∧
      ∀ t : State, r = .next t → ∃ u : State, r' = .next u ∧ FrameList [.st] t u := by
  subst h
  constructor
  · rintro f rfl; rfl
  · rintro t rfl
    exact ⟨_, rfl, (t.frame_setSt c).mono fun e he => List.mem_singleton.2 he⟩

end Sys2Proof.Machine

namespace Sys2Proof

open Sys2Proof.Machine

/-- Settles O45: in both forms of the instruction ST passes through unread, or is overwritten. -/
theorem soundTimerIsNeverRead : Obligations.SoundTimerIsNeverRead := by
  unfold Obligations.SoundTimerIsNeverRead
  intro i s b
  refine ⟨fun rnd => ?_, ?_⟩
  · obtain ⟨c, h⟩ := execOn_setSt s b rnd i
    exact sameButSt_of_mapNext h
  · obtain ⟨c, h⟩ := exec_setSt s b i
    exact sameButSt_of_mapNext h

end Sys2Proof
end

section
/-! SUPPORT. What each element of the state says about it: all ten together say everything (10_state.md R10), and after
`initialize` each has the value of the table (10_state.md R32). -/

namespace Sys2Proof.Machine

/-! ## Memory in canonical form is what it reads as -/

namespace Memory

theorem read_of_mem {m : Memory} (hm : m.wf) {p : Host.Cell} (hp : p ∈ m) : m.read p.1 = p.2 := by
  obtain ⟨hsorted, hlisted⟩ := hm
  clear hlisted
  induction m with
  | nil => cases hp
  | cons q m ih =>
    obtain ⟨hq, hsorted⟩ := List.pairwise_cons.1 hsorted
    rcases List.mem_cons.1 hp with rfl | hp
    · exact if_pos rfl
    · rw [read, if_neg (Nat.ne_of_lt (hq p hp))]; exact ih hp hsorted

/-- The entries of a canonical memory are its bytes that differ from the unlisted ones (log entry 5). -/
theorem mem_iff_read {m : Memory} (hm : m.wf) (p : Host.Cell) :
    p ∈ m ↔ m.read p.1 = p.2 ∧ p.2 ≠ unlisted p.1 := by
  constructor
  · exact fun hp => ⟨read_of_mem hm hp, (hm.2 p hp).2⟩
  · rintro ⟨hread, hne⟩
    by_contra hp
    refine hne (hread.symm.trans (read_of_not_listed m p.1 fun q hq hqp => hp ?_))
    have hqv : q.2 = p.2 := by rw [← read_of_mem hm hq, hqp, hread]
    rwa [← Prod.ext hqp hqv]

/-- Canonical memories with the same bytes are equal. -/
theorem ext_read {m m' : Memory} (hm : m.wf) (hm' : m'.wf) (h : ∀ a, m.read a = m'.read a) : m = m' := by
  have hperm : m.Perm m' := (List.perm_ext_iff_of_nodup ?_ ?_).2 fun p => by
    rw [mem_iff_read hm, mem_iff_read hm', h]
  · exact hperm.eq_of_pairwise (fun p q _ _ hpq hqp => absurd hpq (Nat.lt_asymm hqp)) hm.1 hm'.1
  · exact hm.1.imp fun hlt heq => Nat.ne_of_lt hlt (congrArg Prod.fst heq)
  · exact hm'.1.imp fun hlt heq => Nat.ne_of_lt hlt (congrArg Prod.fst heq)

end Memory

theorem bool_toNat_injective : Function.Injective Bool.toNat :=
  Function.LeftInverse.injective Bool.ofNat_toNat

/-! ## The elements are the state (10_state.md R10) -/

/-- Each element pins its field down; memory, because its form is canonical. -/
theorem State.ext_elements {s t : State} (hs : s.mem.wf) (ht : t.mem.wf)
    (h : ∀ e : Element, e ≠ .draws → e.value s = e.value t) : s.toArch = t.toArch := by
  have hv : s.v = t.v := State.v_ext fun r => BitVec.eq_of_toNat_eq (h (.v r) nofun)
  have hi : s.i = t.i := BitVec.eq_of_toNat_eq (h .i nofun)
  have hpc : s.pc = t.pc := BitVec.eq_of_toNat_eq (h .pc nofun)
  have hstack : s.stack = t.stack :=
    Vector.ext fun k hk => BitVec.eq_of_toNat_eq (h (.stack ⟨k, hk⟩) nofun)
  have hsp : s.sp = t.sp := Fin.ext (h .sp nofun)
  have hdt : s.dt = t.dt := BitVec.eq_of_toNat_eq (h .dt nofun)
  have hst : s.st = t.st := BitVec.eq_of_toNat_eq (h .st nofun)
  have hkeys : s.keys = t.keys := Vector.ext fun k hk => bool_toNat_injective (h (.key ⟨k, hk⟩) nofun)
  have hfb : s.fb = t.fb := Framebuffer.ext_pixel fun px py => bool_toNat_injective (h (.pixel px py) nofun)
  have hmem : s.mem = t.mem := Memory.ext_read hs ht fun a => BitVec.eq_of_toNat_eq (h (.mem a) nofun)
  obtain ⟨⟨⟩, _⟩ := s
  obtain ⟨⟨⟩, _⟩ := t
  exact (Arch.mk.injEq ..).mpr ⟨hv, hi, hpc, hstack, hsp, hdt, hst, hkeys, hfb, hmem⟩

/-! ## The state after `initialize` (10_state.md R32) -/

/-- The state that `initialize` builds from an image, with the environment's place as after reset. -/
def State.initialised (rom : List Byte) : State :=
  { State.reset with mem := Memory.image Config.romBase rom }

theorem initialise_eq_ok {rom : List Byte} (hlen : rom.length ≤ 3584) :
    Arch.initialise rom = .ok (State.initialised rom).toArch :=
  if_neg (Nat.not_lt.2 hlen)

theorem byte_initialised_outside (rom : List Byte) {a : Nat} (h : a < 0x200 ∨ 0x200 + rom.length ≤ a) :
    (State.initialised rom).byte a = Memory.unlisted a :=
  Memory.read_image_outside 0x200 a rom h

/-- The font stands in memory where no image covers it (10_state.md R27, R32). -/
theorem getElem?_fontTable {j : Nat} (hj : j ≤ 79) : Config.fontTable[j]? = some (Memory.unlisted (0x050 + j)) := by
  have hlt : j < Config.fontTable.length := Nat.lt_succ_of_le hj
  have hbase : Config.fontBase ≤ 0x050 + j := Nat.le_add_right _ _
  rw [Memory.unlisted, if_pos hbase, Nat.add_sub_cancel_left, List.getD_eq_getElem?_getD,
    List.getElem?_eq_getElem hlt, Option.getD_some]

end Sys2Proof.Machine

namespace Sys2Proof

open Sys2Proof.Machine

/-- Settles O52: each element pins its field down, memory because its form is canonical (log entry 5). -/
theorem elementsDetermineState : Obligations.ElementsDetermineState := by
  unfold Obligations.ElementsDetermineState
  intro s t hs ht h
  have harch : s.toArch = t.toArch := State.ext_elements hs ht h
  refine ⟨harch, fun hdraws => ?_⟩
  cases s; cases t; cases harch; cases hdraws; rfl

/-- Settles O53: the image in its range, and outside it the contents of memory with no image. -/
theorem initialisedStateByTable : Obligations.InitialisedStateByTable := by
  unfold Obligations.InitialisedStateByTable
  intro rom hlen
  refine ⟨State.initialised rom, initialise_eq_ok hlen, ?v, rfl, rfl, rfl, ?stack, rfl, rfl, ?keys, ?pixels,
    ?low, ?font, ?gap, ?image, ?high⟩
  case v => exact fun r => Vector.getElem_replicate r.isLt
  case stack => exact fun k => Vector.getElem_replicate k.isLt
  case keys => exact fun k => Vector.getElem_replicate k.isLt
  case pixels => exact fun px py => Framebuffer.pixel_clear px.val py.val
  case low =>
    intro a ha
    rw [byte_initialised_outside rom (by omega), Memory.unlisted_of_lt (by omega)]
  case font =>
    intro j hj
    rw [byte_initialised_outside rom (by omega), getElem?_fontTable hj]
  case gap =>
    intro a ha ha'
    rw [byte_initialised_outside rom (by omega), Memory.unlisted_of_ge ha]
  case image =>
    intro j hj
    rw [List.getElem?_eq_getElem hj]
    exact congrArg some (Memory.read_image_inside 0x200 j rom hj).symm
  case high =>
    intro a ha _
    rw [byte_initialised_outside rom (Or.inr ha), Memory.unlisted_of_ge (by omega)]

end Sys2Proof
end

section
/-! SUPPORT. The word that a fetch forms, and the bytes of a completed store as later reads see them (20_memory.md R42 to
R44, R56). -/

namespace Sys2Proof.Machine

namespace State

variable {s t : State}

/-- A completed store had its whole range in memory, and wrote it (20_memory.md R46, R48). -/
theorem storeBytes_eq_next {a : Nat} {bs : List Byte} (h : s.storeBytes a bs = .next t) :
    InMemory a bs.length ∧ t = { s with mem := s.mem.writeBytes a bs } := by
  by_cases hin : InMemory a bs.length
  · rw [s.storeBytes_of_inMemory hin] at h
    cases h; exact ⟨hin, rfl⟩
  · rw [s.storeBytes_of_not_inMemory hin] at h; cases h

/-- Byte `k` of a completed store stands at the address `a + k`, which exists. -/
theorem byte_of_storeBytes {a k : Nat} {bs : List Byte} (h : s.storeBytes a bs = .next t) (hk : k < bs.length) :
    a + k ≤ 0xFFF ∧ t.byte (a + k) = bs[k] := by
  obtain ⟨hin, rfl⟩ := storeBytes_eq_next h
  have hle : a + k ≤ 0xFFF := by omega
  exact ⟨hle, Memory.read_writeBytes_inside s.mem a k bs hk (Nat.lt_succ_of_le hle)⟩

end State

/-- A completed SRI leaves each register up to Vx at its address, which exists (43_index_memory.md R144). -/
theorem execSri_byte {s t : State} {x r : RegNum} (h : execSri x s = .next t) (hr : r.toNat ≤ x.toNat) :
    s.ea r.toNat ≤ 0xFFF ∧ t.byte (s.ea r.toNat) = s.reg r := by
  have hlen : r.toNat < (s.regsUpTo x).length := by rw [State.regsUpTo_length]; omega
  obtain ⟨hle, hbyte⟩ := State.byte_of_storeBytes h hlen
  exact ⟨hle, hbyte.trans (s.getElem_regsUpTo x r hlen)⟩

end Sys2Proof.Machine

namespace Sys2Proof

open Sys2Proof.Machine

/-- Settles O47: each of the two bytes stands where SRI put it, and the fetch reads the lower address first. -/
theorem storedWordIsFetched : Obligations.StoredWordIsFetched := by
  unfold Obligations.StoredWordIsFetched
  intro x a b s t u hsri hmem hab hbx hpc
  have hnext : u.pc.toNat + 1 = s.ea b.toNat := by
    rw [hpc, ← hab]; exact Nat.add_assoc _ _ _
  obtain ⟨-, hhigh⟩ := execSri_byte (r := a) hsri (by omega)
  obtain ⟨hend, hlow⟩ := execSri_byte hsri hbx
  have hbyte (k : Nat) : u.byte k = t.byte k := congrArg (Memory.read · k) hmem
  rw [u.fetch_eq_some (by omega), hnext, hpc, hbyte, hbyte, hhigh, hlow]

/-- Settles O35: up to 0xFFE both bytes exist, and the word is their concatenation, whatever the parity of the PC. -/
theorem fetchIsBigEndian : Obligations.FetchIsBigEndian := by
  unfold Obligations.FetchIsBigEndian
  intro s hpc
  exact ⟨_, s.fetch_eq_some (by omega), toNat_wordOfBytes _ _⟩

end Sys2Proof
end

section
/-! SUPPORT. Decoder and encoder against each other (30_encoding.md R64 to R67): what the decoder gives is the reading of its
word or the word is illegal, and every well-formed instruction is read back. -/

namespace Sys2Proof

/-! ## The illegal words (30_encoding.md R67) -/

/-- The function codes `n` of class 8 (30_encoding.md R65 rows 11 to 19). -/
def class8Keys : List Nibble := [0x0, 0x1, 0x2, 0x3, 0x4, 0x5, 0x6, 0x7, 0xE]

/-- The function codes `kk` of class E (30_encoding.md R65 rows 25 and 26). -/
def classEKeys : List Byte := [0x9E, 0xA1]

/-- The function codes `kk` of class F (30_encoding.md R65 rows 27 to 35). -/
def classFKeys : List Byte := [0x07, 0x0A, 0x15, 0x18, 0x1E, 0x29, 0x33, 0x55, 0x65]

/-- 30_encoding.md R67 on the fields of the word: a class with a secondary key, and a key that is none of its own. -/
def Word.Illegal (op : Word) : Prop :=
  (Word.cls op = 0x5#4 ∧ Word.n op ≠ 0x0#4) ∨
  (Word.cls op = 0x8#4 ∧ Word.n op ∉ class8Keys) ∨
  (Word.cls op = 0x9#4 ∧ Word.n op ≠ 0x0#4) ∨
  (Word.cls op = 0xE#4 ∧ Word.kk op ∉ classEKeys) ∨
  (Word.cls op = 0xF#4 ∧ Word.kk op ∉ classFKeys)

theorem mem_iff_toNat_mem_map {w : Nat} (k : BitVec w) (l : List (BitVec w)) : k ∈ l ↔ k.toNat ∈ l.map BitVec.toNat :=
  (List.mem_map_of_injective BitVec.toNat_injective).symm

theorem not_mem_class8Keys_iff_toNat (k : Nibble) :
    k ∉ class8Keys ↔ k.toNat ∈ [0x8, 0x9, 0xA, 0xB, 0xC, 0xD, 0xF] := by
  revert k; decide

/-- The fields of an illegal word, as numbers. -/
theorem illegal_iff_toNat (op : Word) : Word.Illegal op ↔
    (op.toNat / 4096 = 5 ∧ op.toNat % 16 ≠ 0) ∨
    (op.toNat / 4096 = 8 ∧ op.toNat % 16 ∈ [0x8, 0x9, 0xA, 0xB, 0xC, 0xD, 0xF]) ∨
    (op.toNat / 4096 = 9 ∧ op.toNat % 16 ≠ 0) ∨
    (op.toNat / 4096 = 0xE ∧ op.toNat % 256 ∉ [0x9E, 0xA1]) ∨
    (op.toNat / 4096 = 0xF ∧ op.toNat % 256 ∉ [0x07, 0x0A, 0x15, 0x18, 0x1E, 0x29, 0x33, 0x55, 0x65]) := by
  rw [Word.Illegal, not_mem_class8Keys_iff_toNat, mem_iff_toNat_mem_map, mem_iff_toNat_mem_map]
  simp only [ne_eq, ← BitVec.toNat_inj, toNat_cls, toNat_n, toNat_kk]
  rfl

/-! ## The decoder gives the reading of its word (30_encoding.md R64) -/

/-- A sound answer of the decoder to `op`: a well-formed instruction whose word is `op`, or the error of an illegal
word. -/
def DecodesSoundly (op : Word) : Except DecodeError Instr → Prop
  | .ok i => i.wellFormed = true ∧ encode i = op
  | .error _ => Word.Illegal op

section
variable {op : Word} {c n : Nibble} {kk : Byte}

theorem wordA_of_fields (hc : Word.cls op = c) : wordA c (Word.nnn op) = op :=
  hc ▸ wordA_fields op

theorem wordXK_of_fields (hc : Word.cls op = c) (hkk : Word.kk op = kk) : wordXK c (Word.x op) kk = op :=
  hc ▸ hkk ▸ wordXK_fields op

theorem wordXYN_of_fields (hc : Word.cls op = c) (hn : Word.n op = n) :
    wordXYN c (Word.x op) (Word.y op) n = op :=
  hc ▸ hn ▸ wordXYN_fields op

theorem decodeClass0_sound (hc : Word.cls op = 0x0#4) : DecodesSoundly op (.ok (decodeClass0 op)) := by
  have henc : wordA 0x0 (Word.nnn op) = op := wordA_of_fields hc
  unfold decodeClass0
  split_ifs with hcls hret
  · exact ⟨rfl, hcls.symm⟩
  · exact ⟨rfl, hret.symm⟩
  · refine ⟨?_, henc⟩
    have hE0 : Word.nnn op ≠ 0x0E0#12 := fun h => hcls (by rw [← henc, h]; rfl)
    have hEE : Word.nnn op ≠ 0x0EE#12 := fun h => hret (by rw [← henc, h]; rfl)
    simp [Instr.wellFormed, sysOperandOk, hE0, hEE]

theorem decodeClass8_sound (hc : Word.cls op = 0x8#4) : DecodesSoundly op (decodeClass8 op) := by
  unfold decodeClass8
  split_ifs
  case neg => exact Or.inr (Or.inl ⟨hc, by simp [class8Keys, *]⟩)
  all_goals exact ⟨rfl, wordXYN_of_fields hc (by assumption)⟩

theorem decodeClassE_sound (hc : Word.cls op = 0xE#4) : DecodesSoundly op (decodeClassE op) := by
  unfold decodeClassE
  split_ifs
  case neg => exact Or.inr (Or.inr (Or.inr (Or.inl ⟨hc, by simp [classEKeys, *]⟩)))
  all_goals exact ⟨rfl, wordXK_of_fields hc (by assumption)⟩

theorem decodeClassF_sound (hc : Word.cls op = 0xF#4) : DecodesSoundly op (decodeClassF op) := by
  unfold decodeClassF
  split_ifs
  case neg => exact Or.inr (Or.inr (Or.inr (Or.inr ⟨hc, by simp [classFKeys, *]⟩)))
  all_goals exact ⟨rfl, wordXK_of_fields hc (by assumption)⟩

end

/-- The decoder is sound on every word, class by class. -/
theorem decode_sound (op : Word) : DecodesSoundly op (decode op) := by
  obtain hc | hc | hc | hc | hc | hc | hc | hc | hc | hc | hc | hc | hc | hc | hc | hc := cls_cases (Word.cls op)
  · rw [decode_class0 hc]; exact decodeClass0_sound hc
  · rw [decode_class1 hc]; exact ⟨rfl, wordA_of_fields hc⟩
  · rw [decode_class2 hc]; exact ⟨rfl, wordA_of_fields hc⟩
  · rw [decode_class3 hc]; exact ⟨rfl, wordXK_of_fields hc rfl⟩
  · rw [decode_class4 hc]; exact ⟨rfl, wordXK_of_fields hc rfl⟩
  · rw [decode_class5 hc]
    split_ifs with hn
    · exact ⟨rfl, wordXYN_of_fields hc hn⟩
    · exact Or.inl ⟨hc, hn⟩
  · rw [decode_class6 hc]; exact ⟨rfl, wordXK_of_fields hc rfl⟩
  · rw [decode_class7 hc]; exact ⟨rfl, wordXK_of_fields hc rfl⟩
  · rw [decode_class8 hc]; exact decodeClass8_sound hc
  · rw [decode_class9 hc]
    split_ifs with hn
    · exact ⟨rfl, wordXYN_of_fields hc hn⟩
    · exact Or.inr (Or.inr (Or.inl ⟨hc, hn⟩))
  · rw [decode_classA hc]; exact ⟨rfl, wordA_of_fields hc⟩
  · rw [decode_classB hc]; exact ⟨rfl, wordA_of_fields hc⟩
  · rw [decode_classC hc]; exact ⟨rfl, wordXK_of_fields hc rfl⟩
  · rw [decode_classD hc]; exact ⟨rfl, wordXYN_of_fields hc rfl⟩
  · rw [decode_classE hc]; exact decodeClassE_sound hc
  · rw [decode_classF hc]; exact decodeClassF_sound hc

theorem sound_of_decode_eq_ok {op : Word} {i : Instr} (h : decode op = .ok i) : i.wellFormed = true ∧ encode i = op := by
  have hs := decode_sound op
  rwa [h] at hs

theorem illegal_of_decode_eq_error {op : Word} {e : DecodeError} (h : decode op = .error e) : Word.Illegal op := by
  have hs := decode_sound op
  rwa [h] at hs

/-! ## Every well-formed instruction is read back (30_encoding.md R65) -/

/-- Outside the two words of CLS and RET, a word of class 0 is SYS (30_encoding.md R66). -/
theorem decodeClass0_wordA {nnn : Addr} (h : sysOperandOk nnn = true) : decodeClass0 (wordA 0x0 nnn) = .sys nnn := by
  simp only [sysOperandOk, Bool.and_eq_true, bne_iff_ne] at h
  obtain ⟨hE0, hEE⟩ := h
  have hcls : wordA 0x0 nnn ≠ 0x00E0#16 := fun h => hE0 (by rw [← nnn_wordA 0x0 nnn, h]; rfl)
  have hret : wordA 0x0 nnn ≠ 0x00EE#16 := fun h => hEE (by rw [← nnn_wordA 0x0 nnn, h]; rfl)
  rw [decodeClass0, if_neg hcls, if_neg hret, nnn_wordA]

theorem decode_encode {i : Instr} (h : i.wellFormed = true) : decode (encode i) = .ok i := by
  cases i with
  | sys nnn => exact (decode_class0 (cls_wordA ..)).trans (congrArg _ (decodeClass0_wordA h))
  | cls | ret => decide
  | jp => simp [encode, decode_class1]
  | call => simp [encode, decode_class2]
  | seKk => simp [encode, decode_class3]
  | sneKk => simp [encode, decode_class4]
  | seVy => simp [encode, decode_class5]
  | ld => simp [encode, decode_class6]
  | addKk => simp [encode, decode_class7]
  | ldVy | or | and | xor | add | sub | shr | subn | shl => simp [encode, decode_class8, decodeClass8]
  | sneVy => simp [encode, decode_class9]
  | ldi => simp [encode, decode_classA]
  | jp0 => simp [encode, decode_classB]
  | rnd => simp [encode, decode_classC]
  | drw => simp [encode, decode_classD]
  | skp | sknp => simp [encode, decode_classE, decodeClassE]
  | ldVxDt | ldk | ldDtVx | ldStVx | addi | ldf | sbcd | sri | lir => simp [encode, decode_classF, decodeClassF]

theorem decodeBytes_cons_cons (hi lo : Byte) (rest : List Byte) :
    decodeBytes (hi :: lo :: rest) = (decode (wordOfBytes hi lo)).map (·, rest) := by
  rw [decodeBytes]
  cases decode (wordOfBytes hi lo) <;> rfl

theorem decodeBytes_bytesOfWord (op : Word) (rest : List Byte) :
    decodeBytes (bytesOfWord op ++ rest) = (decode op).map (·, rest) := by
  rw [bytesOfWord, List.cons_append, List.cons_append, List.nil_append, decodeBytes_cons_cons, wordOfBytes_bytesOfWord]

/-! ## The statements -/

/-- Settles O30: the two bytes make the instruction's word again, and the decoder reads it back. -/
theorem decodeOfEncode : Obligations.DecodeOfEncode := by
  unfold Obligations.DecodeOfEncode
  intro i rest hwf
  rw [encodeBytes, decodeBytes_bytesOfWord, decode_encode hwf]
  rfl

/-- Settles O31: every branch of the dispatch builds its instruction from the fields of the word. -/
theorem encodeOfDecode : Obligations.EncodeOfDecode := by
  unfold Obligations.EncodeOfDecode
  intro op i hd
  exact sound_of_decode_eq_ok hd

/-- Settles O29: twelve evaluations of the decoder. -/
theorem sampleWordsDecode : Obligations.SampleWordsDecode := by
  unfold Obligations.SampleWordsDecode
  decide

end Sys2Proof
end

section
/-! SUPPORT. The opcode map (30_encoding.md R65 to R67): which rows a word selects, that no row selects an illegal word, and
that the first row selected carries the id of the decoded instruction. -/

namespace Sys2Proof

/-! ## Which rows of the opcode map a word selects (30_encoding.md R65, R66) -/

/-- Every instruction has its row in the map, and its word selects it. -/
theorem exists_row_encode (i : Instr) : Laws.RowPattern.Statement i := by
  open Laws.RowPattern in
  cases i with
  | sys => exact sys _
  | cls => exact cls
  | ret => exact ret
  | jp => exact jp _
  | call => exact call _
  | seKk => exact seKk _ _
  | sneKk => exact sneKk _ _
  | seVy => exact seVy _ _
  | ld => exact ld _ _
  | addKk => exact addKk _ _
  | ldVy => exact ldVy _ _
  | or => exact or _ _
  | and => exact and _ _
  | xor => exact xor _ _
  | add => exact add _ _
  | sub => exact sub _ _
  | shr => exact shr _ _
  | subn => exact subn _ _
  | shl => exact shl _ _
  | sneVy => exact sneVy _ _
  | ldi => exact ldi _
  | jp0 => exact jp0 _
  | rnd => exact rnd _ _
  | drw => exact drw _ _ _
  | skp => exact skp _
  | sknp => exact sknp _
  | ldVxDt => exact ldVxDt _
  | ldk => exact ldk _
  | ldDtVx => exact ldDtVx _
  | ldStVx => exact ldStVx _
  | addi => exact addi _
  | ldf => exact ldf _
  | sbcd => exact sbcd _
  | sri => exact sri _
  | lir => exact lir _

theorem cls_and (a b : Word) : Word.cls (a &&& b) = Word.cls a &&& Word.cls b := BitVec.extractLsb'_and

theorem n_and (a b : Word) : Word.n (a &&& b) = Word.n a &&& Word.n b := BitVec.extractLsb'_and

theorem kk_and (a b : Word) : Word.kk (a &&& b) = Word.kk a &&& Word.kk b := BitVec.extractLsb'_and

/-- The mask of a row covers the class nibble and, in a class with a secondary key, that key. -/
theorem opcodeMap_masks_keys : ∀ r ∈ opcodeMap, Word.cls r.mask = 0xF#4 ∧
    (Word.cls r.pattern ∈ [0x5#4, 0x8#4, 0x9#4] → Word.n r.mask = 0xF#4) ∧
    (Word.cls r.pattern ∈ [0xE#4, 0xF#4] → Word.kk r.mask = 0xFF#8) := by
  decide

theorem opcodeMap_patterns_legal : ∀ r ∈ opcodeMap, ¬ Word.Illegal r.pattern := by
  unfold Word.Illegal; decide

/-- No row of the map selects an illegal word: the row's pattern has the word's class and key, so it would be illegal. -/
theorem not_illegal_of_selects {r : OpcodeRow} {op : Word} (hr : r ∈ opcodeMap) (hsel : op &&& r.mask = r.pattern) :
    ¬ Word.Illegal op := by
  obtain ⟨hclsMask, hnMask, hkkMask⟩ := opcodeMap_masks_keys r hr
  have hcls : Word.cls r.pattern = Word.cls op := by
    rw [← hsel, cls_and, hclsMask, Laws.RowPattern.and_nibble]
  have hn (h : Word.cls op ∈ [0x5#4, 0x8#4, 0x9#4]) : Word.n r.pattern = Word.n op := by
    rw [← hsel, n_and, hnMask (hcls ▸ h), Laws.RowPattern.and_nibble]
  have hkk (h : Word.cls op ∈ [0xE#4, 0xF#4]) : Word.kk r.pattern = Word.kk op := by
    rw [← hsel, kk_and, hkkMask (hcls ▸ h), Laws.RowPattern.and_byte]
  intro hillegal
  refine opcodeMap_patterns_legal r hr ?_
  unfold Word.Illegal at hillegal ⊢
  rw [hcls]
  obtain ⟨hc, h⟩ | ⟨hc, h⟩ | ⟨hc, h⟩ | ⟨hc, h⟩ | ⟨hc, h⟩ := hillegal
  · rw [hn (by simp [hc])]; exact Or.inl ⟨hc, h⟩
  · rw [hn (by simp [hc])]; exact Or.inr (Or.inl ⟨hc, h⟩)
  · rw [hn (by simp [hc])]; exact Or.inr (Or.inr (Or.inl ⟨hc, h⟩))
  · rw [hkk (by simp [hc])]; exact Or.inr (Or.inr (Or.inr (Or.inl ⟨hc, h⟩)))
  · rw [hkk (by simp [hc])]; exact Or.inr (Or.inr (Or.inr (Or.inr ⟨hc, h⟩)))

/-- The decoder refuses exactly the illegal words: an instruction's word is selected by its own row. -/
theorem exists_decode_eq_error_iff (op : Word) : (∃ e, decode op = .error e) ↔ Word.Illegal op := by
  constructor
  · rintro ⟨e, he⟩; exact illegal_of_decode_eq_error he
  · intro hill
    cases hd : decode op with
    | error e => exact ⟨e, rfl⟩
    | ok i =>
      obtain ⟨-, rfl⟩ := sound_of_decode_eq_ok hd
      obtain ⟨r, hr, -, hsel⟩ := exists_row_encode i
      exact absurd hill (not_illegal_of_selects hr hsel)

/-- Bits that the mask takes from the other pattern are already in this one, where both agree under both masks. -/
theorem or_and_mask {m p m' p' : Word} (hp : p &&& m = p) (h : p' &&& m = p &&& m') : (p ||| p') &&& m = p := by
  rw [BitVec.and_or_distrib_right, hp, h]
  ext k
  simp +contextual

/-- Two rows whose patterns lie under their masks share a word exactly where the patterns agree under both masks; the
word with the bits of both patterns is then one. -/
theorem exists_selects_both_iff {m p m' p' : Word} (hp : p &&& m = p) (hp' : p' &&& m' = p') :
    (∃ op : Word, op &&& m = p ∧ op &&& m' = p') ↔ p &&& m' = p' &&& m := by
  constructor
  · rintro ⟨op, rfl, rfl⟩
    rw [BitVec.and_assoc, BitVec.and_assoc, BitVec.and_comm m]
  · intro h
    exact ⟨p ||| p', or_and_mask hp h.symm, BitVec.or_comm p p' ▸ or_and_mask hp' h⟩

theorem opcodeMap_patterns_masked : ∀ r ∈ opcodeMap, r.pattern &&& r.mask = r.pattern := by
  decide

/-- The finite part of R66, over the pairs of rows: patterns agree under both masks only for SYS with CLS or RET. -/
theorem opcodeMap_agreeing_patterns : ∀ r ∈ opcodeMap, ∀ q ∈ opcodeMap, r ≠ q →
    (r.pattern &&& q.mask = q.pattern &&& r.mask ↔
      (r.id = "SYS" ∧ (q.id = "CLS" ∨ q.id = "RET")) ∨ (q.id = "SYS" ∧ (r.id = "CLS" ∨ r.id = "RET"))) := by
  decide

/-- The rows of CLS and RET are whole words. -/
theorem opcodeMap_cls_ret : ∀ r ∈ opcodeMap, r.id = "CLS" ∨ r.id = "RET" →
    r.mask = 0xFFFF#16 ∧ (r.pattern = 0x00E0#16 ∨ r.pattern = 0x00EE#16) := by
  decide

/-- 30_encoding.md R66, for words: from the agreement of patterns to a word that both rows select. -/
theorem rows_overlap_iff {r q : OpcodeRow} (hr : r ∈ opcodeMap) (hq : q ∈ opcodeMap) (hne : r ≠ q) :
    (∃ op : Word, op &&& r.mask = r.pattern ∧ op &&& q.mask = q.pattern) ↔
      (r.id = "SYS" ∧ (q.id = "CLS" ∨ q.id = "RET")) ∨ (q.id = "SYS" ∧ (r.id = "CLS" ∨ r.id = "RET")) :=
  (exists_selects_both_iff (opcodeMap_patterns_masked r hr) (opcodeMap_patterns_masked q hq)).trans
    (opcodeMap_agreeing_patterns r hr q hq hne)

section
variable {op : Word} {r q : OpcodeRow}

theorem eq_cls_or_ret_of_selects (hr : r ∈ opcodeMap) (hid : r.id = "CLS" ∨ r.id = "RET")
    (hsel : op &&& r.mask = r.pattern) : op = 0x00E0#16 ∨ op = 0x00EE#16 := by
  obtain ⟨hmask, hpattern⟩ := opcodeMap_cls_ret r hr hid
  have hop : op = r.pattern := by
    rw [← hsel, hmask]; exact BitVec.and_allOnes.symm
  rwa [hop]

/-- Outside the words of CLS and RET, a word selects at most one row. -/
theorem row_eq_of_selects (hcls : op ≠ 0x00E0#16) (hret : op ≠ 0x00EE#16) (hr : r ∈ opcodeMap) (hq : q ∈ opcodeMap)
    (hselr : op &&& r.mask = r.pattern) (hselq : op &&& q.mask = q.pattern) : r = q := by
  by_contra hne
  have hwhole : op = 0x00E0#16 ∨ op = 0x00EE#16 := by
    obtain ⟨-, hid⟩ | ⟨-, hid⟩ := (rows_overlap_iff hr hq hne).1 ⟨op, hselr, hselq⟩
    · exact eq_cls_or_ret_of_selects hq hid hselq
    · exact eq_cls_or_ret_of_selects hr hid hselr
  exact hwhole.elim hcls hret

theorem lookupId_eq_some (hr : r ∈ opcodeMap) (hsel : op &&& r.mask = r.pattern)
    (hunique : ∀ q ∈ opcodeMap, op &&& q.mask = q.pattern → r = q) : lookupId op = some r.id := by
  cases hfind : opcodeMap.find? fun r => op &&& r.mask == r.pattern with
  | none => exact absurd hsel (by simpa using List.find?_eq_none.1 hfind r hr)
  | some q =>
    have hq : r = q := hunique q (List.mem_of_find?_eq_some hfind) (by simpa using List.find?_some hfind)
    rw [lookupId, hfind, hq]; rfl

theorem lookupId_of_illegal (h : Word.Illegal op) : lookupId op = none := by
  rw [lookupId, Option.map_eq_none_iff, List.find?_eq_none]
  intro r hr hsel
  exact not_illegal_of_selects hr (by simpa using hsel) h

/-- The table names a decoded instruction: its own row is selected, and but for CLS and RET it is the only one. -/
theorem lookupId_of_decode_eq_ok {i : Instr} (hd : decode op = .ok i) : lookupId op = some i.id := by
  by_cases hcls : op = 0x00E0#16
  · subst hcls; cases hd; decide
  by_cases hret : op = 0x00EE#16
  · subst hret; cases hd; decide
  obtain ⟨-, rfl⟩ := sound_of_decode_eq_ok hd
  obtain ⟨r, hr, hid, hsel⟩ := exists_row_encode i
  rw [← hid]
  exact lookupId_eq_some hr hsel fun q hq hselq => row_eq_of_selects hcls hret hr hq hsel hselq

end

/-! ## The statements -/

/-- Settles O32: a decoded word selects its instruction's row first, and an illegal word selects none. -/
theorem dispatchAgreesWithOpcodeMap : Obligations.DispatchAgreesWithOpcodeMap := by
  unfold Obligations.DispatchAgreesWithOpcodeMap
  intro op
  cases hd : decode op with
  | ok i => exact (lookupId_of_decode_eq_ok hd).symm
  | error e => exact (lookupId_of_illegal (illegal_of_decode_eq_error hd)).symm

/-- Settles O33: two rows share a word where their patterns agree under both masks, which the table shows. -/
theorem opcodeRowsOverlapOnlyInSys : Obligations.OpcodeRowsOverlapOnlyInSys := by
  unfold Obligations.OpcodeRowsOverlapOnlyInSys
  intro r hr q hq hne
  exact rows_overlap_iff hr hq hne

/-- Settles O34: the refused words are the illegal ones of the table, and a step that fetches one stops at the decode. -/
theorem illegalWordsFault : Obligations.IllegalWordsFault := by
  unfold Obligations.IllegalWordsFault
  intro op
  refine ⟨(exists_decode_eq_error_iff op).trans (illegal_iff_toNat op), ?_⟩
  intro s e hfetch hd
  rw [Machine.step_of_fetch hfetch, hd]

end Sys2Proof
end

section
/-! SUPPORT. The step as a whole (40_step_cycle.md R80 to R91): it executes the decoded instruction, a fault leaves the state
as it was, the keys and timers pass through, and the environment is read by RND only. -/

namespace Sys2Proof.Machine

/-! ## Keys and timers under an instruction (40_step_cycle.md R89) -/

section
variable {i : Instr} {s t : State}

theorem exec_keys (h : exec i s = .next t) : t.keys = s.keys := by
  refine Vector.ext fun k hk => bool_toNat_injective ?_
  have hkey : ¬ Writes i s (.key ⟨k, hk⟩) := by cases i <;> simp [Writes]
  exact everyInstructionKeepsItsFrame i s t h (.key ⟨k, hk⟩) hkey

theorem exec_dt (h : exec i s = .next t) (hi : ∀ x, i ≠ .ldDtVx x) : t.dt = s.dt := by
  have hdt : ¬ Writes i s .dt := by
    cases i with
    | ldDtVx x => exact absurd rfl (hi x)
    | _ => simp [Writes]
  exact BitVec.eq_of_toNat_eq (everyInstructionKeepsItsFrame i s t h .dt hdt)

theorem exec_st (h : exec i s = .next t) (hi : ∀ x, i ≠ .ldStVx x) : t.st = s.st := by
  have hst : ¬ Writes i s .st := by
    cases i with
    | ldStVx x => exact absurd rfl (hi x)
    | _ => simp [Writes]
  exact BitVec.eq_of_toNat_eq (everyInstructionKeepsItsFrame i s t h .st hst)

end

/-! ## The environment's place (10_state.md R31; log entry 1) -/

/-- A step reads the handler it is given only at the instruction it decodes. -/
theorem State.stepBy_congr {s : State} {op : Word} {run run' : Instr → State → Result} (hfetch : s.fetch = some op)
    (h : ∀ i, decode op = .ok i → run i s.advance = run' i s.advance) : s.stepBy run = s.stepBy run' := by
  rw [s.stepBy_of_fetch run hfetch, s.stepBy_of_fetch run' hfetch]
  cases hd : decode op with
  | error e => rfl
  | ok i => exact h i hd

section
variable (s : State) (d : Nat)

theorem State.skipIf_setDraws (c : Bool) :
    State.skipIf { s with draws := d } c = { s.skipIf c with draws := d } := by
  cases c <;> rfl

/-- An instruction given the environment's next byte, wherever the environment stands, does what `exec` does, and leaves the
environment where it stands. -/
theorem execOn_nextByte (i : Instr) :
    execOn (Config.rnd s.draws) i { s with draws := d } = mapNext (fun t => { t with draws := d }) (exec i s) := by
  cases i with
  | call =>
    simp only [execOn, exec, execCall, State.push]
    by_cases hs : s.sp.val < 16 <;> simp only [hs] <;> rfl
  | ret =>
    simp only [execOn, exec, execRet, State.pop]
    by_cases hs : 0 < s.sp.val <;> simp only [hs] <;> rfl
  | ldk =>
    have hkey : State.lowestKey { s with draws := d } = s.lowestKey := rfl
    simp only [execOn, exec, execLdk, hkey]
    cases s.lowestKey <;> rfl
  | seKk | sneKk | seVy | sneVy | skp | sknp => exact congrArg Host.Outcome.next (s.skipIf_setDraws d _)
  | drw | sbcd | sri | lir =>
    simp only [execOn, exec, execDrw, execSbcd, execSri, execLir, State.storeBytes, State.loadRegs, apply_ite (mapNext _)]
    rfl
  | _ => rfl

/-- Every instruction but RND does the same wherever the environment stands. -/
theorem exec_setDraws {i : Instr} (hi : ∀ x kk, i ≠ .rnd x kk) :
    exec i { s with draws := d } = mapNext (fun t => { t with draws := d }) (exec i s) := by
  rw [← execOn_nextByte, execOn_of_ne_rnd _ _ _ hi]

theorem stepBy_execOn_nextByte :
    State.stepBy { s with draws := d } (execOn (Config.rnd s.draws)) =
      mapNext (fun t => { t with draws := d }) (step s) := by
  have hsame : State.fetch { s with draws := d } = s.fetch := rfl
  cases hfetch : s.fetch with
  | none =>
    rw [State.stepBy_of_no_fetch _ (hsame.trans hfetch), step, s.stepBy_of_no_fetch exec hfetch]; rfl
  | some op =>
    rw [State.stepBy_of_fetch _ (hsame.trans hfetch), step_of_fetch hfetch]
    cases decode op with
    | error e => rfl
    | ok i => exact execOn_nextByte s.advance d i

/-- What is committed does not depend on the environment's place. -/
theorem State.commit_setDraws (r : Result) :
    State.commit { s with draws := d } (mapNext (fun t => { t with draws := d }) r) =
      ((s.commit r).1, { (s.commit r).2 with draws := d }) := by
  cases r <;> rfl

end

/-! ## Faults at the port (40_step_cycle.md R87) -/

/-- The port answers a fault exactly when the step raises it, and commits the state before the step. -/
theorem stepPort_eq_fault_iff {s t : State} {f : Fault} :
    stepPort s = (.fault f, t) ↔ step s = .fault f ∧ t = s := by
  unfold stepPort
  cases step s <;> simp [eq_comm]

end Sys2Proof.Machine

namespace Sys2Proof

open Sys2Proof.Machine

/-- Settles O42: the frame of the executed instruction, which the advance before it does not touch. -/
theorem stepLeavesKeysAndTimers : Obligations.StepLeavesKeysAndTimers := by
  unfold Obligations.StepLeavesKeysAndTimers
  intro s t i op hfetch hdecode hstep
  have hexec : exec i s.advance = .next t := by rwa [step_of_fetch hfetch, hdecode] at hstep
  exact ⟨(exec_keys hexec).trans s.advance_keys, fun hi => (exec_dt hexec hi).trans s.advance_dt,
    fun hi => (exec_st hexec hi).trans s.advance_st⟩

/-- Settles O43: `execOn` is `exec` but for RND, and `exec` but for RND ignores the environment's place. -/
theorem randomByteOnlyInRnd : Obligations.RandomByteOnlyInRnd := by
  unfold Obligations.RandomByteOnlyInRnd
  refine ⟨fun s op hfetch hop a b => ?_, fun i s d hi => exec_setDraws s d hi⟩
  have hrun : State.stepBy { s with draws := 0 } (execOn a) = State.stepBy { s with draws := 0 } (execOn b) := by
    refine State.stepBy_congr hfetch fun i hd => ?_
    have hi : ∀ x kk, i ≠ .rnd x kk := fun x kk h => hop x kk (h ▸ hd)
    rw [execOn_of_ne_rnd a i _ hi, execOn_of_ne_rnd b i _ hi]
  simp only [Arch.step, hrun]

/-- Settles O44: the two steps agree but for the environment's place, which is no part of the machine. -/
theorem hostStepIsStepOfNextByte : Obligations.HostStepIsStepOfNextByte := by
  unfold Obligations.HostStepIsStepOfNextByte
  intro s
  simp only [Arch.step, stepPort]
  rw [stepBy_execOn_nextByte, State.commit_setDraws]

/-- Settles O36: a decoded instruction is well-formed, and the fetch at the PC reads the two bytes it was decoded from. -/
theorem stepExecutesDecodedInstruction : Obligations.StepExecutesDecodedInstruction := by
  unfold Obligations.StepExecutesDecodedInstruction
  intro s i hpc hdecode
  obtain ⟨hwf, -⟩ := sound_of_decode_eq_ok hdecode
  refine ⟨hwf, ?_⟩
  rw [step_of_fetch (s.fetch_eq_some hpc), hdecode]; rfl

/-- Settles O39: the fault is committed with the state before the step, from which the step is the same again. -/
theorem faultChangesNothing : Obligations.FaultChangesNothing := by
  unfold Obligations.FaultChangesNothing
  intro s t f h
  obtain ⟨-, rfl⟩ := stepPort_eq_fault_iff.1 h
  exact ⟨rfl, h⟩

end Sys2Proof
end

section
/-! SUPPORT. The control-transfer instructions (41_control_flow.md): when CALL and RET complete and with what, the skips as
one shape, and the step that finds out a bad target. -/

namespace Sys2Proof.Machine

section
variable {s t : State}

/-! ## Frames with the written elements listed -/

theorem Frame.frameList {W : Element → Prop} {L : List Element} (h : Frame W s t) (hW : ∀ e, W e → e ∈ L) :
    FrameList L s t :=
  h.mono hW

theorem Frame.frameList_singleton {a : Element} (h : Frame (fun e => e = a) s t) : FrameList [a] s t :=
  h.frameList fun _ => List.mem_singleton.2

/-! ## Targets (41_control_flow.md R109) -/

/-- A bad target is found out by the step after the jump (20_memory.md R44). -/
theorem step_of_pc_out (h : 0xFFF ≤ s.pc.toNat) : step s = .fault .addressOutOfRange :=
  s.stepBy_of_no_fetch exec (s.fetch_eq_none.2 (Nat.succ_le_succ h))

/-- A jump back to the instruction's own address undoes the advance (40_step_cycle.md R92). -/
theorem State.jump_advance_of_eq_pc {w : Word} (h : w = s.pc) : s.advance.jump w = s := by
  subst h; rfl

/-! ## The call stack (41_control_flow.md R101, R103) -/

theorem execCall_of_lt {nnn : Addr} (hs : s.sp.val < 16) :
    execCall nnn s = .next { s with
      stack := s.stack.set s.sp.val s.pc hs, sp := ⟨s.sp.val + 1, by omega⟩, pc := zextAddr nnn } := by
  rw [execCall, State.push, dif_pos hs]; rfl

theorem execCall_of_full {nnn : Addr} (hs : s.sp.val = 16) : execCall nnn s = .fault .stackOverflow := by
  rw [execCall, (s.push_eq_none s.pc).2 hs]; rfl

theorem execRet_of_pos (hs : 0 < s.sp.val) :
    execRet s = .next { s with
      sp := ⟨s.sp.val - 1, by omega⟩, pc := s.stack[s.sp.val - 1]'(by omega) } := by
  rw [execRet, State.pop, if_pos hs]; rfl

theorem execRet_of_empty (hs : s.sp.val = 0) : execRet s = .fault .stackUnderflow := by
  rw [execRet, s.pop_eq_none.2 hs]; rfl

/-- RET at the target of a CALL, where its own fetch has advanced the PC, undoes the push. -/
theorem execRet_advance_of_execCall {nnn : Addr} (h : execCall nnn s = .next t) :
    ∃ u : State, execRet t.advance = .next u ∧ u.pc = s.pc ∧ u.sp = s.sp := by
  obtain ⟨hs, rfl⟩ := execCall_eq_next h
  exact ⟨_, execRet_of_pos (Nat.succ_pos s.sp.val), Vector.getElem_set_self hs, rfl⟩

end

/-! ## Skips (41_control_flow.md R109) -/

/-- An instruction whose meaning is `skipIf` skips on that condition. -/
theorem skips_of_exec {i : Instr} {c : State → Bool} (h : ∀ s, exec i s = .next (s.skipIf (c s))) : Skips i c :=
  fun s => ⟨_, h s, s.skipIf_pc (c s), (s.frame_skipIf (c s)).frameList_singleton⟩

theorem seVy_skips (x y : RegNum) : Skips (.seVy x y) fun s => s.reg x == s.reg y :=
  skips_of_exec fun _ => rfl

theorem sneVy_skips (x y : RegNum) : Skips (.sneVy x y) fun s => s.reg x != s.reg y :=
  skips_of_exec fun _ => rfl

end Sys2Proof.Machine

namespace Sys2Proof

open Sys2Proof.Machine

/-- Settles O1: the meaning of SYS is the fault itself. -/
theorem sysRaisesIllegalOpcode : Obligations.SysRaisesIllegalOpcode := by
  unfold Obligations.SysRaisesIllegalOpcode
  exact fun _ _ => rfl

/-- Settles O2: the popped address is that of the topmost held slot, which the invariant bounds. -/
theorem retPopsReturnAddress : Obligations.RetPopsReturnAddress := by
  unfold Obligations.RetPopsReturnAddress
  refine ⟨decode_encode (i := .ret) rfl, fun s hs => execRet_of_empty hs, fun s hs => ?_⟩
  have hret := execRet_of_pos hs
  refine ⟨_, hret, rfl, rfl, (execRet_frame hret).frameList (by simp), fun hinv => ?_, step_of_pc_out⟩
  exact hinv.stack_le ⟨s.sp.val - 1, by omega⟩ (Nat.sub_lt hs Nat.one_pos)

/-- Settles O3: a jump sets the PC only, and one to the PC before the advance gives the state back. -/
theorem jpSetsPc : Obligations.JpSetsPc := by
  unfold Obligations.JpSetsPc
  intro nnn
  have hdecode : decode (wordA 0x1 nnn) = .ok (.jp nnn) := decode_encode (i := .jp nnn) rfl
  have htarget := toNat_zextAddr nnn
  refine ⟨hdecode, fun s => ?_, fun s hfetch hself => ?_⟩
  · exact ⟨_, rfl, htarget, (s.frame_jump _).frameList_singleton, fun h => step_of_pc_out (htarget.trans h).ge⟩
  · have hpc : zextAddr nnn = s.pc := BitVec.eq_of_toNat_eq (htarget.trans hself.symm)
    rw [step_of_fetch hfetch, hdecode]
    exact congrArg Host.Outcome.next (State.jump_advance_of_eq_pc hpc)

/-- Settles O4: the push takes place exactly when a slot is free. -/
theorem callPushesAndJumps : Obligations.CallPushesAndJumps := by
  unfold Obligations.CallPushesAndJumps
  refine fun nnn => ⟨decode_encode (i := .call nnn) rfl, fun s hs => execCall_of_full hs, fun s hs => ?_⟩
  have hcall := execCall_of_lt (nnn := nnn) hs
  refine ⟨_, hcall, Vector.getElem_set_self hs, rfl, toNat_zextAddr nnn, (execCall_frame hcall).frameList ?_⟩
  rintro e (rfl | rfl | ⟨k, hk, rfl⟩)
  · simp
  · simp
  · simp [Fin.ext_iff, hk]

/-- Settles O5: the meaning is the skip on that comparison. -/
theorem seKkSkipsOnEqual : Obligations.SeKkSkipsOnEqual := by
  unfold Obligations.SeKkSkipsOnEqual
  exact fun x kk => ⟨decode_encode (i := .seKk x kk) rfl, skips_of_exec fun _ => rfl⟩

/-- Settles O6: the meaning is the skip on that comparison. -/
theorem sneKkSkipsOnDifferent : Obligations.SneKkSkipsOnDifferent := by
  unfold Obligations.SneKkSkipsOnDifferent
  exact fun x kk => ⟨decode_encode (i := .sneKk x kk) rfl, skips_of_exec fun _ => rfl⟩

/-- Settles O7: with `x = y` the comparison is constant, and the words with another `n` are illegal. -/
theorem registerComparesSkip : Obligations.RegisterComparesSkip := by
  unfold Obligations.RegisterComparesSkip
  refine fun x y => ⟨decode_encode (i := .seVy x y) rfl, decode_encode (i := .sneVy x y) rfl, fun n hn => ⟨?_, ?_⟩,
    seVy_skips x y, sneVy_skips x y, by simpa using seVy_skips x x, by simpa using sneVy_skips x x⟩
  · have hill : Word.Illegal (wordXYN 0x5 x y n) := Or.inl ⟨cls_wordXYN .., by simpa using hn⟩
    exact (exists_decode_eq_error_iff _).2 hill
  · have hill : Word.Illegal (wordXYN 0x9 x y n) := Or.inr (Or.inr (Or.inl ⟨cls_wordXYN .., by simpa using hn⟩))
    exact (exists_decode_eq_error_iff _).2 hill

/-- Settles O8: the sum of a 12-bit and an 8-bit number fits in 16 bits. -/
theorem jp0AddsV0 : Obligations.Jp0AddsV0 := by
  unfold Obligations.Jp0AddsV0
  refine fun nnn => ⟨decode_encode (i := .jp0 nnn) rfl, fun s => ?_⟩
  have hsum := toNat_zextAddr_add_zextByte nnn (s.reg 0x0#4)
  have hle : (zextAddr nnn + zextByte (s.reg 0x0#4)).toNat ≤ 0x10FE := by
    have hn := nnn.isLt
    have hv := (s.reg 0x0#4).isLt
    omega
  exact ⟨_, rfl, hsum, hle, (s.frame_jump _).frameList_singleton, step_of_pc_out⟩

/-- Settles O46: the RET finds the slot and the depth that the CALL left, which the advance between them keeps. -/
theorem callThenRetReturns : Obligations.CallThenRetReturns := by
  unfold Obligations.CallThenRetReturns
  intro nnn s hdepth
  have hcall := execCall_of_lt (nnn := nnn) (Nat.lt_succ_of_le hdepth)
  obtain ⟨u, hret⟩ := execRet_advance_of_execCall hcall
  exact ⟨_, u, hcall, hret⟩

end Sys2Proof
end

section
/-! SUPPORT. Register load, arithmetic, logic, shift and random instructions (42_load_alu.md): the two shapes of their
effect, and the model's flags and results as the numbers that the spec gives. -/

namespace Sys2Proof.Machine

/-! ## The two shapes of effect (40_step_cycle.md R86) -/

theorem State.frameList_setReg (s : State) (x : RegNum) (b : Byte) : FrameList [.v x] s (s.setReg x b) :=
  (s.frame_setReg x b).frameList_singleton

theorem State.reg_setReg_self (s : State) (x : RegNum) (b : Byte) : (s.setReg x b).reg x = b := by
  rw [State.reg_setReg, if_pos rfl]

/-- Writing back what a register holds changes nothing. -/
theorem State.setReg_reg_self (s : State) (x : RegNum) : s.setReg x (s.reg x) = s := by
  simp only [State.setReg, State.reg, Vector.set_getElem_self]

section
variable {i : Instr} {x : RegNum}

/-- An instruction whose meaning is one write of Vx sets Vx to the value written. -/
theorem setsReg_of_exec {value : State → Byte} (h : ∀ s, exec i s = .next (s.setReg x (value s))) :
    SetsReg i x value :=
  fun s => ⟨_, h s, s.reg_setReg_self x (value s), s.frameList_setReg x (value s)⟩

/-- An instruction whose meaning is the two writes of R86 sets Vx to the result and, unless `x` is VF, VF to the flag. -/
theorem setsRegAndFlag_of_exec {flag result : State → Byte}
    (h : ∀ s, exec i s = .next (s.setFlagThenReg x (flag s) (result s))) : SetsRegAndFlag i x flag result := by
  intro s
  refine ⟨_, h s, ?_, fun hx => ?_, (s.frame_setFlagThenReg x _ _).frameList (by simp)⟩
  · rw [State.reg_setFlagThenReg, if_pos rfl]
  · rw [State.reg_setFlagThenReg, if_neg hx.symm, if_pos rfl]

end

/-! ## Results as numbers (42_load_alu.md R132) -/

section
variable (a b : Byte)

theorem add_eq_ofNat_mod : a + b = BitVec.ofNat 8 ((a.toNat + b.toNat) % 256) :=
  BitVec.eq_of_toNat_eq (by rw [BitVec.toNat_add, BitVec.toNat_ofNat, Nat.mod_mod])

theorem sub_eq_ofNat_mod : a - b = BitVec.ofNat 8 ((a.toNat + 256 - b.toNat) % 256) :=
  BitVec.eq_of_toNat_eq (by rw [BitVec.toNat_sub, BitVec.toNat_ofNat]; omega)

theorem shiftRight_one_eq_ofNat : a >>> 1 = BitVec.ofNat 8 (a.toNat / 2) :=
  BitVec.eq_of_toNat_eq (by rw [BitVec.toNat_ushiftRight, BitVec.toNat_ofNat, Nat.shiftRight_eq_div_pow]; omega)

theorem shiftLeft_one_eq_ofNat_mod : a <<< 1 = BitVec.ofNat 8 (2 * a.toNat % 256) :=
  BitVec.eq_of_toNat_eq (by rw [BitVec.toNat_shiftLeft, BitVec.toNat_ofNat, Nat.shiftLeft_eq]; omega)

/-! ## Flags as numbers (10_state.md R12) -/

theorem flagOf_decide (p : Prop) [Decidable p] : flagOf (decide p) = if p then 1 else 0 := by
  simp only [flagOf, decide_eq_true_eq]

/-- A flag is the 0 or 1 that its condition is as a number. -/
theorem flagOf_eq_ofNat_toNat (c : Bool) : flagOf c = BitVec.ofNat 8 c.toNat := by
  cases c <;> rfl

/-- The bit at place `k` as a number. -/
theorem toNat_getLsbD (k : Nat) : (a.getLsbD k).toNat = a.toNat / 2 ^ k % 2 :=
  Nat.toNat_testBit a.toNat k

theorem lowBitFlag_eq_ofNat : lowBitFlag a = BitVec.ofNat 8 (a.toNat % 2) := by
  rw [lowBitFlag, flagOf_eq_ofNat_toNat, toNat_getLsbD, Nat.pow_zero, Nat.div_one]

theorem highBitFlag_eq_ofNat : highBitFlag a = BitVec.ofNat 8 (a.toNat / 128) := by
  have hbit : a.toNat / 2 ^ 7 % 2 = a.toNat / 128 := by omega
  rw [highBitFlag, flagOf_eq_ofNat_toNat, toNat_getLsbD, hbit]

end

/-! ## Subtraction, the operands in either order (42_load_alu.md R127, R129) -/

/-- Writing a difference with its strict flag, given as the model's words or as the spec's numbers. -/
theorem State.setFlagThenReg_sub (s : State) (x : RegNum) (a b : Byte) :
    s.setFlagThenReg x (greaterFlag a b) (a - b) =
      s.setFlagThenReg x (if a.toNat > b.toNat then 1 else 0) (BitVec.ofNat 8 ((a.toNat + 256 - b.toNat) % 256)) := by
  rw [greaterFlag, flagOf_decide, sub_eq_ofNat_mod]

/-! ## The byte under the mask (42_load_alu.md R131) -/

section
variable (s : State) (x : RegNum) (kk rnd : Byte)

theorem State.reg_setRandom_self : (s.setRandom x kk rnd).reg x = rnd &&& kk :=
  s.reg_setReg_self x (rnd &&& kk)

/-- Where the mask is clear, so is the register. -/
theorem State.getLsbD_reg_setRandom_of_mask (b : Nat) (hb : kk.getLsbD b = false) :
    ((s.setRandom x kk rnd).reg x).getLsbD b = false := by
  rw [State.reg_setRandom_self, BitVec.getLsbD_and, hb, Bool.and_false]

end

end Sys2Proof.Machine

namespace Sys2Proof

open Sys2Proof.Machine

/-- Settles O9: the meaning is the write of the byte. -/
theorem ldLoadsImmediate : Obligations.LdLoadsImmediate := by
  unfold Obligations.LdLoadsImmediate
  exact fun x kk => ⟨decode_encode (i := .ld x kk) rfl, setsReg_of_exec fun _ => rfl⟩

/-- Settles O10: with `x = y` the register is written with what it holds. -/
theorem ldVyCopiesRegister : Obligations.LdVyCopiesRegister := by
  unfold Obligations.LdVyCopiesRegister
  exact fun x y => ⟨decode_encode (i := .ldVy x y) rfl, setsReg_of_exec fun _ => rfl,
    fun s => congrArg Host.Outcome.next (s.setReg_reg_self x)⟩

/-- Settles O11: the sum of two bytes is the sum modulo 256, and Vx is the one register written. -/
theorem addKkWrapsWithoutFlag : Obligations.AddKkWrapsWithoutFlag := by
  unfold Obligations.AddKkWrapsWithoutFlag
  refine fun x kk => setsReg_of_exec fun s => ?_
  rw [exec, execAddKk, add_eq_ofNat_mod]

/-- Settles O12: each is one write of Vx, whose bits are those of the operation on bytes. -/
theorem logicIsBitwiseWithoutFlag : Obligations.LogicIsBitwiseWithoutFlag := by
  unfold Obligations.LogicIsBitwiseWithoutFlag
  refine fun x y s => ⟨⟨_, rfl, s.frameList_setReg x _, fun b _ => ?_⟩, ⟨_, rfl, s.frameList_setReg x _, fun b _ => ?_⟩,
    ⟨_, rfl, s.frameList_setReg x _, fun b _ => ?_⟩⟩
  · rw [State.reg_setReg_self, BitVec.getLsbD_or]
  · rw [State.reg_setReg_self, BitVec.getLsbD_and]
  · rw [State.reg_setReg_self, BitVec.getLsbD_xor]

/-- Settles O13: both writes take their values from the operands before either write. -/
theorem addSetsCarry : Obligations.AddSetsCarry := by
  unfold Obligations.AddSetsCarry
  refine fun x y => setsRegAndFlag_of_exec fun s => ?_
  rw [exec, execAdd, carryFlag, flagOf_decide, add_eq_ofNat_mod]

/-- Settles O14: SUBN is SUB with the operands exchanged. -/
theorem subtractsSetStrictFlag : Obligations.SubtractsSetStrictFlag := by
  unfold Obligations.SubtractsSetStrictFlag
  refine fun x y => ⟨setsRegAndFlag_of_exec fun s => ?_, setsRegAndFlag_of_exec fun s => ?_⟩
  · exact congrArg Host.Outcome.next (s.setFlagThenReg_sub x (s.reg x) (s.reg y))
  · exact congrArg Host.Outcome.next (s.setFlagThenReg_sub x (s.reg y) (s.reg x))

/-- Settles O15: the bit shifted out is the remainder by 2 or the quotient by 128, and `y` takes no part. -/
theorem shiftsKeepShiftedOutBit : Obligations.ShiftsKeepShiftedOutBit := by
  unfold Obligations.ShiftsKeepShiftedOutBit
  refine fun x y => ⟨setsRegAndFlag_of_exec fun s => ?_, setsRegAndFlag_of_exec fun s => ?_⟩
  · rw [exec, execShr, lowBitFlag_eq_ofNat, shiftRight_one_eq_ofNat]
  · rw [exec, execShl, highBitFlag_eq_ofNat, shiftLeft_one_eq_ofNat_mod]

/-- Settles O16: RND is one write of Vx with the masked byte, under the host's step after the draw of that byte. -/
theorem rndMasksFreeByte : Obligations.RndMasksFreeByte := by
  unfold Obligations.RndMasksFreeByte
  refine fun x kk s => ⟨fun rnd => ?_, ?_⟩
  · exact ⟨_, rfl, s.reg_setRandom_self x kk rnd, s.frameList_setReg x _, s.getLsbD_reg_setRandom_of_mask x kk rnd⟩
  · have hexec : exec (.rnd x kk) s = .next (s.draw.2.setRandom x kk s.draw.1) := rfl
    exact ⟨_, hexec, State.reg_setRandom_self _ x kk _, rfl, (execRnd_frame hexec).frameList (by simp),
      State.getLsbD_reg_setRandom_of_mask _ x kk _⟩

end Sys2Proof
end

section
/-! SUPPORT. Index-register and memory-transfer instructions (43_index_memory.md): the values that I takes as numbers, and
when a transfer at I completes and with what. -/

namespace Sys2Proof.Machine

/-! ## Setting I (43_index_memory.md R140 to R142) -/

/-- An instruction whose meaning is one write of I sets I to the value written. -/
theorem setsIndex_of_exec {i : Instr} {value : State → Nat} (w : State → Word)
    (h : ∀ s, exec i s = .next { s with i := w s }) (hw : ∀ s, (w s).toNat = value s) : SetsIndex i value :=
  fun s => ⟨_, h s, hw s, (s.frame_setI (w s)).frameList_singleton⟩

theorem toNat_add_zextByte (w : Word) (b : Byte) : (w + zextByte b).toNat = (w.toNat + b.toNat) % 65536 := by
  have hb := b.isLt
  rw [BitVec.toNat_add, zextByte, BitVec.toNat_setWidth_of_le (by omega)]

theorem toNat_lowNibble (b : Byte) : (lowNibble b).toNat = b.toNat % 16 := by
  rw [lowNibble, BitVec.extractLsb'_toNat, Nat.shiftRight_zero]

/-- The last glyph starts at 0x009B, so no glyph address wraps (43_index_memory.md R142). -/
theorem toNat_glyphAddr (d : Nibble) : (glyphAddr d).toNat = 0x0050 + 5 * d.toNat := by
  have hd := d.isLt
  rw [glyphAddr, BitVec.toNat_ofNat]
  exact Nat.mod_eq_of_lt (by simp only [Config.fontBase, Config.fontGlyphBytes]; omega)

/-! ## The range of a transfer at I (20_memory.md R46, R47; 43_index_memory.md R146) -/

/-- A transfer of `k + 1` bytes at I ends at I + k. -/
theorem inMemory_ea_succ_iff (s : State) (k : Nat) : InMemory (s.ea 0) (k + 1) ↔ s.i.toNat + k ≤ 0xFFF := by
  simp only [InMemory, State.ea]; omega

namespace State

variable {s t : State} {n k : Nat} {bs : List Byte}

theorem storeBytes_ea_of_le (hlen : bs.length = k + 1) (h : s.i.toNat + k ≤ 0xFFF) :
    ∃ t : State, s.storeBytes (s.ea 0) bs = .next t :=
  ⟨_, s.storeBytes_of_inMemory (hlen ▸ (inMemory_ea_succ_iff s k).2 h)⟩

theorem storeBytes_ea_of_gt (hlen : bs.length = k + 1) (h : s.i.toNat + k > 0xFFF) :
    s.storeBytes (s.ea 0) bs = .fault .addressOutOfRange :=
  s.storeBytes_of_not_inMemory (hlen ▸ mt (inMemory_ea_succ_iff s k).1 (Nat.not_le.2 h))

theorem storeBytes_i {a : Nat} (h : s.storeBytes a bs = .next t) : t.i = s.i := by
  obtain ⟨-, rfl⟩ := storeBytes_eq_next h
  rfl

/-- A completed load had its whole range in memory, and set the registers to its bytes (20_memory.md R46). -/
theorem loadRegs_eq_next {a : Nat} (h : s.loadRegs a n = .next t) :
    InMemory a n ∧ t = { s with v := setRegsFrom s.v 0 (s.mem.readBytes a n) } := by
  by_cases hin : InMemory a n
  · rw [s.loadRegs_of_inMemory hin] at h
    cases h; exact ⟨hin, rfl⟩
  · rw [s.loadRegs_of_not_inMemory hin] at h; cases h

/-- Register `r` after a completed load holds the byte that is `r` addresses on. -/
theorem reg_of_loadRegs {a : Nat} {r : RegNum} (h : s.loadRegs a n = .next t) (hr : r.toNat < n) :
    t.reg r = s.byte (a + r.toNat) := by
  obtain ⟨-, rfl⟩ := loadRegs_eq_next h
  have hlen : 0 ≤ r.toNat ∧ r.toNat - 0 < (s.mem.readBytes a n).length :=
    ⟨Nat.zero_le _, by rwa [Memory.readBytes_length]⟩
  calc (setRegsFrom s.v 0 (s.mem.readBytes a n))[r.toNat]'r.isLt
    _ = (s.mem.readBytes a n)[r.toNat - 0]'hlen.2 := (getElem_setRegsFrom s.v 0 _ r.toNat r.isLt).trans (dif_pos hlen)
    _ = s.byte (a + r.toNat) := s.mem.getElem_readBytes a n _ hlen.2

end State

/-! ## LIR (43_index_memory.md R145) -/

section
variable {s t : State} {x r : RegNum}

theorem execLir_of_le (h : s.i.toNat + x.toNat ≤ 0xFFF) : ∃ t : State, execLir x s = .next t :=
  ⟨_, s.loadRegs_of_inMemory ((inMemory_ea_succ_iff s x.toNat).2 h)⟩

theorem execLir_of_gt (h : s.i.toNat + x.toNat > 0xFFF) : execLir x s = .fault .addressOutOfRange :=
  s.loadRegs_of_not_inMemory (mt (inMemory_ea_succ_iff s x.toNat).1 (Nat.not_le.2 h))

/-- A completed LIR sets each register up to Vx to the byte at its address. -/
theorem execLir_reg (h : execLir x s = .next t) (hr : r.toNat ≤ x.toNat) : t.reg r = s.byte (s.ea r.toNat) :=
  State.reg_of_loadRegs h (Nat.lt_succ_of_le hr)

end

/-! ## SBCD (43_index_memory.md R143) -/

/-- Each decimal digit of a byte fits in a byte. -/
theorem map_toNat_bcdDigits (b : Byte) :
    (bcdDigits b).map BitVec.toNat = [b.toNat / 100, b.toNat / 10 % 10, b.toNat % 10] := by
  have hb := b.isLt
  have hundreds : b.toNat / 100 % 256 = b.toNat / 100 := by omega
  have htens : b.toNat / 10 % 10 % 256 = b.toNat / 10 % 10 := by omega
  have hunits : b.toNat % 10 % 256 = b.toNat % 10 := by omega
  simp [bcdDigits, hundreds, htens, hunits]

/-- A completed SBCD leaves digit `k`, hundreds first, at I + k. -/
theorem execSbcd_byte {s t : State} {x : RegNum} (h : execSbcd x s = .next t) (k : Nat) (hk : k < 3) :
    (t.byte (s.ea k)).toNat =
      [(s.reg x).toNat / 100, (s.reg x).toNat / 10 % 10, (s.reg x).toNat % 10][k] := by
  obtain ⟨-, hbyte⟩ := State.byte_of_storeBytes (k := k) h hk
  simp only [← map_toNat_bcdDigits, List.getElem_map]
  exact congrArg BitVec.toNat hbyte

end Sys2Proof.Machine

namespace Sys2Proof

open Sys2Proof.Machine

/-- Settles O20: the x + 1 bytes stored at I are V0 to Vx, and the store completes exactly when the last one fits. -/
theorem sriStoresRegisters : Obligations.SriStoresRegisters := by
  unfold Obligations.SriStoresRegisters
  refine fun x s => ⟨fun h => State.storeBytes_ea_of_gt (s.regsUpTo_length x) h, fun h => ?_⟩
  obtain ⟨t, hsri⟩ := State.storeBytes_ea_of_le (s.regsUpTo_length x) h
  exact ⟨t, hsri, fun r hr => (execSri_byte hsri hr).2, execSri_frame hsri⟩

/-- Settles O21: the x + 1 bytes loaded from I go to V0 to Vx, and the load completes exactly when the last one is in
memory. -/
theorem lirLoadsRegisters : Obligations.LirLoadsRegisters := by
  unfold Obligations.LirLoadsRegisters
  refine fun x s => ⟨execLir_of_gt, fun h => ?_⟩
  obtain ⟨t, hlir⟩ := execLir_of_le h
  exact ⟨t, hlir, fun r hr => execLir_reg hlir hr, execLir_frame hlir⟩

/-- Settles O22: SRI kept I and had its range in memory, so LIR completes and reads the bytes that SRI stored. -/
theorem lirAfterSriRestores : Obligations.LirAfterSriRestores := by
  unfold Obligations.LirAfterSriRestores
  intro x s t u hsri hmem hi
  have hiu : u.i = s.i := hi.trans (State.storeBytes_i hsri)
  have hea (k : Nat) : u.ea k = s.ea k := congrArg (BitVec.toNat · + k) hiu
  have hbyte (a : Nat) : u.byte a = t.byte a := congrArg (Memory.read · a) hmem
  have hrange : u.ea x.toNat ≤ 0xFFF := (hea _).trans_le (execSri_byte hsri (le_refl x.toNat)).1
  obtain ⟨w, hlir⟩ := execLir_of_le hrange
  refine ⟨w, hlir, fun r hr => ?_⟩
  calc w.reg r
    _ = u.byte (u.ea r.toNat) := execLir_reg hlir hr
    _ = t.byte (s.ea r.toNat) := by rw [hea, hbyte]
    _ = s.reg r := (execSri_byte hsri hr).2

/-- Settles O17: the meaning is the write of I, and the zero-extended address is the same number. -/
theorem ldiLoadsIndex : Obligations.LdiLoadsIndex := by
  unfold Obligations.LdiLoadsIndex
  exact fun nnn => ⟨decode_encode (i := .ldi nnn) rfl, setsIndex_of_exec _ (fun _ => rfl) fun _ => toNat_zextAddr nnn⟩

/-- Settles O18: both are one write of I, of a 16-bit sum or of a glyph's address. -/
theorem addiWrapsLdfPointsAtGlyph : Obligations.AddiWrapsLdfPointsAtGlyph := by
  unfold Obligations.AddiWrapsLdfPointsAtGlyph
  refine fun x => ⟨setsIndex_of_exec _ (fun _ => rfl) fun s => toNat_add_zextByte s.i (s.reg x),
    setsIndex_of_exec _ (fun _ => rfl) fun s => ?_⟩
  rw [toNat_glyphAddr, toNat_lowNibble]

/-- Settles O19: the store of the three digits at I completes exactly when I + 2 is in memory. -/
theorem sbcdStoresDecimalDigits : Obligations.SbcdStoresDecimalDigits := by
  unfold Obligations.SbcdStoresDecimalDigits
  refine fun x s => ⟨fun h => State.storeBytes_ea_of_gt rfl h, fun h => ?_⟩
  obtain ⟨t, hsbcd⟩ := State.storeBytes_ea_of_le (bs := bcdDigits (s.reg x)) rfl h
  have hdigit := execSbcd_byte hsbcd
  refine ⟨t, hsbcd, hdigit 0 (by decide), hdigit 1 (by decide), hdigit 2 (by decide),
    (execSbcd_frame hsbcd).frameList ?_⟩
  rintro e ⟨k, hk, rfl⟩
  interval_cases k <;> simp

end Sys2Proof
end

section
/-! SUPPORT. Display instructions (44_display.md): when DRW completes and with what, and what a second DRW over the same
pixels finds and leaves. -/

namespace Sys2Proof.Machine

theorem collisionFlag_eq_one_iff (hit : Bool) : collisionFlag hit = 1 ↔ hit = true := by
  cases hit <;> decide

theorem collisionFlag_eq_zero_iff (hit : Bool) : collisionFlag hit = 0 ↔ ¬ hit = true := by
  cases hit <;> decide

/-- Which pixels a DRW draws over depends on I, memory and the coordinates only (44_display.md R152 (b)). -/
theorem drawnOver_congr {s u : State} {x y : RegNum} (n : Nibble) (hi : u.i = s.i) (hmem : u.mem = s.mem)
    (hx : u.reg x = s.reg x) (hy : u.reg y = s.reg y) (px py : Nat) :
    DrawnOver u x y n px py ↔ DrawnOver s x y n px py := by
  simp only [DrawnOver, Covered, State.byte, State.ea, hi, hmem, hx, hy]

/-! ## DRW (44_display.md R151) -/

section
variable {s t u w : State} {x y : RegNum} {n : Nibble}

theorem execDrw_of_inMemory (h : InMemory (s.ea 0) n.toNat) : ∃ t : State, execDrw x y n s = .next t :=
  ⟨_, if_pos h⟩

theorem execDrw_of_not_inMemory (h : ¬ InMemory (s.ea 0) n.toNat) : execDrw x y n s = .fault .addressOutOfRange :=
  if_neg h

/-- A completed DRW had its whole sprite in memory, and set the framebuffer and VF to the blit's. -/
theorem execDrw_eq_next (h : execDrw x y n s = .next t) :
    InMemory (s.ea 0) n.toNat ∧ t = { s with fb := (s.blit x y n).1 }.setReg vf (collisionFlag (s.blit x y n).2) := by
  by_cases hin : InMemory (s.ea 0) n.toNat
  · rw [execDrw, if_pos hin] at h
    cases h; exact ⟨hin, rfl⟩
  · rw [execDrw_of_not_inMemory hin] at h; cases h

/-- The pixels after a completed DRW: exactly those it draws over are inverted. -/
theorem execDrw_pixel (h : execDrw x y n s = .next t) (px : Fin 64) (py : Fin 32) :
    (DrawnOver s x y n px.val py.val → t.fb.pixel px.val py.val = !(s.fb.pixel px.val py.val)) ∧
    (¬ DrawnOver s x y n px.val py.val → t.fb.pixel px.val py.val = s.fb.pixel px.val py.val) := by
  obtain ⟨-, rfl⟩ := execDrw_eq_next h
  have hblit := s.blit_pixel x y n px.val py.val
  rwa [Nat.mod_eq_of_lt px.isLt, Nat.mod_eq_of_lt py.isLt] at hblit

theorem execDrw_vf_eq_one_iff (h : execDrw x y n s = .next t) : t.reg vf = 1 ↔ Collides s x y n := by
  obtain ⟨-, rfl⟩ := execDrw_eq_next h
  rw [State.reg_setReg_self, collisionFlag_eq_one_iff, State.blit_hit]

theorem execDrw_vf_eq_zero_iff (h : execDrw x y n s = .next t) : t.reg vf = 0 ↔ ¬ Collides s x y n := by
  obtain ⟨-, rfl⟩ := execDrw_eq_next h
  rw [State.reg_setReg_self, collisionFlag_eq_zero_iff, State.blit_hit]

/-! ## Two DRW over the same pixels (44_display.md R152 (b), (e)) -/

/-- Each pixel drawn over is inverted twice, and every other is left alone twice. -/
theorem execDrw_twice_fb (h : execDrw x y n s = .next t) (hu : execDrw x y n u = .next w) (hfb : u.fb = t.fb)
    (hdrawn : ∀ px py, DrawnOver u x y n px py ↔ DrawnOver s x y n px py) : w.fb = s.fb := by
  refine Framebuffer.ext_pixel fun px py => ?_
  obtain ⟨hinv, hkeep⟩ := execDrw_pixel h px py
  obtain ⟨hinv', hkeep'⟩ := execDrw_pixel hu px py
  by_cases hover : DrawnOver s x y n px.val py.val
  · rw [hinv' ((hdrawn _ _).2 hover), hfb, hinv hover, Bool.not_not]
  · rw [hkeep' (mt (hdrawn _ _).1 hover), hfb, hkeep hover]

/-- After a DRW, the pixels drawn over are on where they were off, so the same DRW collides there. -/
theorem collides_after_execDrw_iff (h : execDrw x y n s = .next t) (hfb : u.fb = t.fb)
    (hdrawn : ∀ px py, DrawnOver u x y n px py ↔ DrawnOver s x y n px py) :
    Collides u x y n ↔
      ∃ (px : Fin 64) (py : Fin 32), DrawnOver s x y n px.val py.val ∧ s.fb.pixel px.val py.val = false := by
  refine exists_congr fun px => exists_congr fun py => ?_
  rw [hdrawn, hfb]
  refine and_congr_right fun hover => ?_
  rw [(execDrw_pixel h px py).1 hover, Bool.not_eq_true']

end

end Sys2Proof.Machine

namespace Sys2Proof

open Sys2Proof.Machine

/-- Settles O24: DRW completes exactly when its sprite is in memory, and then the blit gives the pixels and VF. -/
theorem drwDrawsByXor : Obligations.DrwDrawsByXor := by
  unfold Obligations.DrwDrawsByXor
  refine fun x y n s => ⟨fun hn hout => execDrw_of_not_inMemory ?_, fun hin => ?_⟩
  · simp only [InMemory, State.ea]; omega
  · obtain ⟨t, hdrw⟩ := execDrw_of_inMemory (x := x) (y := y) (s := s) hin
    exact ⟨t, hdrw, execDrw_pixel hdrw, (execDrw_vf_eq_one_iff hdrw).2, (execDrw_vf_eq_zero_iff hdrw).2,
      (execDrw_frame hdrw).mono fun _ => Or.imp_right fun ⟨px, py, he, _⟩ => ⟨px, py, he⟩⟩

/-- Settles O25: the second DRW draws over the pixels of the first, in the framebuffer that the first left. -/
theorem drwTwiceRestoresPixels : Obligations.DrwTwiceRestoresPixels := by
  unfold Obligations.DrwTwiceRestoresPixels
  intro x y n s t u hdrw hfb hi hmem hx hy
  have hdrawn := drawnOver_congr n hi hmem hx hy
  have hin : InMemory (u.ea 0) n.toNat := by
    rw [State.ea, hi]; exact (execDrw_eq_next hdrw).1
  obtain ⟨w, hdrw'⟩ := execDrw_of_inMemory (x := x) (y := y) hin
  exact ⟨w, hdrw', execDrw_twice_fb hdrw hdrw' hfb hdrawn,
    (execDrw_vf_eq_one_iff hdrw').trans (collides_after_execDrw_iff hdrw hfb hdrawn)⟩

/-- Settles O23: the meaning is the write of the clear framebuffer. -/
theorem clsClearsFramebuffer : Obligations.ClsClearsFramebuffer := by
  unfold Obligations.ClsClearsFramebuffer
  exact ⟨decode_encode (i := .cls) rfl, fun s => ⟨_, rfl, fun px py => Framebuffer.pixel_clear px.val py.val,
    execCls_frame rfl⟩⟩

end Sys2Proof
end

section
/-! SUPPORT. Key and timer instructions (45_keys_timers.md): the key that a register names, and the two cases of the key
wait. -/

namespace Sys2Proof.Machine

section
variable {s : State}

/-! ## Keys (10_state.md R22) -/

/-- The key index is the register's value modulo 16 (92_eei_decisions.md D8). -/
theorem State.keyDown_lowNibble (s : State) (b : Byte) :
    s.keyDown (lowNibble b) = s.keys[b.toNat % 16]'(Nat.mod_lt _ (by decide)) := by
  simp only [keyDown, toNat_lowNibble]

/-- A key that is down with every smaller one up is `lowestKey` (45_keys_timers.md R162). -/
theorem State.lowestKey_eq_some_of {k : Fin 16} (hk : s.keys[k] = true) (hbelow : ∀ j : Fin 16, j < k → s.keys[j] = false) :
    s.lowestKey = some k := by
  cases hl : s.lowestKey with
  | none => exact absurd hk (Bool.eq_false_iff.1 (s.lowestKey_eq_none.1 hl k))
  | some l =>
    obtain ⟨hdown, hup⟩ := State.lowestKey_eq_some hl
    have hkl : ¬ k < l := fun h => Bool.eq_false_iff.1 (hup k h) hk
    have hlk : ¬ l < k := fun h => Bool.eq_false_iff.1 (hbelow l h) hdown
    exact congrArg some (le_antisymm (not_lt.1 hkl) (not_lt.1 hlk))

/-! ## The key wait (45_keys_timers.md R162) -/

theorem execLdk_of_none {x : RegNum} (h : s.lowestKey = none) : execLdk x s = .next s.retreat := by
  rw [execLdk, h]

theorem execLdk_of_some {x : RegNum} {k : Fin 16} (h : s.lowestKey = some k) :
    execLdk x s = .next (s.setReg x (BitVec.ofNat 8 k.val)) := by
  rw [execLdk, h]

/-- Going back to the instruction's own address undoes the advance (40_step_cycle.md R88). -/
theorem State.retreat_advance (s : State) : s.advance.retreat = s :=
  State.jump_advance_of_eq_pc State.retreat_advance_pc

/-- A step that fetches LDK with no key down is a step to the same state. -/
theorem step_ldk_of_none {x : RegNum} (hfetch : s.fetch = some (wordXK 0xF x 0x0A)) (h : s.lowestKey = none) :
    step s = .next s := by
  have hdecode : decode (wordXK 0xF x 0x0A) = .ok (.ldk x) := decode_encode (i := .ldk x) rfl
  have hwait : exec (.ldk x) s.advance = .next s.advance.retreat := execLdk_of_none (s.lowestKey_advance.trans h)
  rw [s.retreat_advance] at hwait
  rw [step_of_fetch hfetch, hdecode]
  exact hwait

/-- A key number fits in a byte. -/
theorem toNat_ofNat_key (k : Fin 16) : (BitVec.ofNat 8 k.val).toNat = k.val := by
  rw [BitVec.toNat_ofNat]; omega

end

/-! ## The tone (45_keys_timers.md R165) -/

theorem Arch.toneOn_iff (m : Arch) : m.toneOn = true ↔ m.st ≠ 0 := bne_iff_ne

end Sys2Proof.Machine

namespace Sys2Proof

open Sys2Proof.Machine

/-- Settles O26: the meanings are the two skips on the key of the low nibble, which is the value modulo 16. -/
theorem keySkipsTestLowNibbleKey : Obligations.KeySkipsTestLowNibbleKey := by
  unfold Obligations.KeySkipsTestLowNibbleKey
  refine fun x => ⟨skips_of_exec fun s => ?_, skips_of_exec fun s => ?_⟩
  · rw [← s.keyDown_lowNibble]; rfl
  · rw [← s.keyDown_lowNibble]; rfl

/-- Settles O27: the wait steps back over the advance, and else the one lowest key down is the one that is written. -/
theorem ldkWaitsOrTakesLowestKey : Obligations.LdkWaitsOrTakesLowestKey := by
  unfold Obligations.LdkWaitsOrTakesLowestKey
  refine fun x s => ⟨fun hup => ?_, fun k hk hbelow => ?_, fun hup hfetch => ?_⟩
  · exact ⟨_, execLdk_of_none (s.lowestKey_eq_none.2 hup), rfl, s.frame_retreat.frameList_singleton⟩
  · refine ⟨_, execLdk_of_some (State.lowestKey_eq_some_of hk hbelow), ?_, s.frameList_setReg x _⟩
    rw [State.reg_setReg_self, toNat_ofNat_key]
  · exact step_ldk_of_none hfetch (s.lowestKey_eq_none.2 hup)

/-- Settles O28: each is one write, of Vx or of a timer, and the tone reads the sound timer. -/
theorem timerMoves : Obligations.TimerMoves := by
  unfold Obligations.TimerMoves
  refine fun x => ⟨decode_encode (i := .ldVxDt x) rfl, decode_encode (i := .ldDtVx x) rfl,
    decode_encode (i := .ldStVx x) rfl, setsReg_of_exec fun _ => rfl, fun s => ⟨?_, ?_⟩⟩
  · exact ⟨_, rfl, rfl, (s.frame_setDt _).frameList_singleton⟩
  · exact ⟨_, rfl, rfl, (s.frame_setSt _).frameList_singleton, Arch.toneOn_iff _⟩

end Sys2Proof
end

section
/-! SUPPORT. Exceptions and ports (60_exceptions.md): which outcome a handler and a step have, and what the operations of the
driver beside the step do. -/

namespace Sys2Proof.Machine

/-! ## The outcome that a fault table gives (60_exceptions.md R170, R178) -/

/-- The outcome is the given fault, or a completed step where none is given: in neither case a refusal. -/
def Result.RaisesExactly (r : Result) : Option Fault → Prop
  | some f => r = .fault f
  | none => ∃ t : State, r = .next t

section
variable {r : Result}

/-- The given fault decides which of the three outcomes it is. -/
theorem Result.RaisesExactly.outcome_iff {o : Option Fault} (h : Result.RaisesExactly r o) :
    (∀ f : Fault, r = .fault f ↔ o = some f) ∧ ((∃ t : State, r = .next t) ↔ o = none) ∧ ∀ q : Refusal, r ≠ .refused q := by
  cases o with
  | some g => cases h; simp
  | none => obtain ⟨t, rfl⟩ := h; simp

/-- A handler with one guard: it raises its fault where the guard holds, and completes elsewhere. -/
theorem Result.raisesExactly_ite {p : Prop} [Decidable p] {f : Fault} (hfault : p → r = .fault f)
    (hnext : ¬ p → ∃ t : State, r = .next t) : Result.RaisesExactly r (if p then some f else none) := by
  by_cases hp : p
  · rw [if_pos hp]; exact hfault hp
  · rw [if_neg hp]; exact hnext hp

end

/-! ## The handlers (60_exceptions.md R171 to R174) -/

/-- The bounds rule of a sprite: nothing is read when `n` is 0, else the last row is at I + n - 1 (20_memory.md R46). -/
theorem not_inMemory_ea_iff (s : State) (n : Nat) : ¬ InMemory (s.ea 0) n ↔ 0 < n ∧ s.i.toNat + n - 1 > 0xFFF := by
  simp only [InMemory, State.ea]; omega

/-- Every handler raises the fault that the table gives it, and completes where the table gives none. -/
theorem exec_raisesExactly (i : Instr) (s : State) : Result.RaisesExactly (exec i s) (handlerFault i s) := by
  cases i with
  | sys => rfl
  | ret =>
    exact Result.raisesExactly_ite execRet_of_empty fun hsp => ⟨_, execRet_of_pos (Nat.pos_of_ne_zero hsp)⟩
  | call =>
    exact Result.raisesExactly_ite execCall_of_full fun hsp =>
      ⟨_, execCall_of_lt (Nat.lt_of_le_of_ne (Nat.le_of_lt_succ s.sp.isLt) hsp)⟩
  | drw x y n =>
    exact Result.raisesExactly_ite (fun hout => execDrw_of_not_inMemory ((not_inMemory_ea_iff s n.toNat).2 hout))
      fun hin => execDrw_of_inMemory (not_imp_comm.1 (not_inMemory_ea_iff s n.toNat).1 hin)
  | sbcd =>
    exact Result.raisesExactly_ite (State.storeBytes_ea_of_gt rfl) fun hin =>
      State.storeBytes_ea_of_le rfl (Nat.le_of_not_lt hin)
  | sri x =>
    exact Result.raisesExactly_ite (State.storeBytes_ea_of_gt (s.regsUpTo_length x)) fun hin =>
      State.storeBytes_ea_of_le (s.regsUpTo_length x) (Nat.le_of_not_lt hin)
  | lir =>
    exact Result.raisesExactly_ite execLir_of_gt fun hin => execLir_of_le (Nat.le_of_not_lt hin)
  | ldk =>
    cases hkey : s.lowestKey with
    | none => exact ⟨_, execLdk_of_none hkey⟩
    | some k => exact ⟨_, execLdk_of_some hkey⟩
  | _ => exact ⟨_, rfl⟩

/-! ## The step (60_exceptions.md R178) -/

theorem stepFault_of_no_fetch {s : State} (h : s.fetch = none) : stepFault s = some .addressOutOfRange :=
  if_pos (s.fetch_eq_none.1 h)

/-- Once the fetch is in range, the first fault is that of the decode or else of the handler. -/
theorem stepFault_of_fetch {s : State} {op : Word} (h : s.fetch = some op) :
    stepFault s = match decode op with
      | .error _ => some .illegalOpcode
      | .ok i => handlerFault i s.advance := by
  have hpc : s.pc.toNat + 1 ≤ 0xFFF := Nat.succ_le_succ (State.pc_le_of_fetch h)
  obtain rfl : wordOfBytes (s.byte s.pc.toNat) (s.byte (s.pc.toNat + 1)) = op :=
    Option.some.inj ((s.fetch_eq_some hpc).symm.trans h)
  exact if_neg (Nat.not_lt.2 hpc)

/-- A step raises its first fault, stage by stage, and completes where no stage raises one. -/
theorem step_raisesExactly (s : State) : Result.RaisesExactly (step s) (stepFault s) := by
  cases hfetch : s.fetch with
  | none =>
    rw [stepFault_of_no_fetch hfetch]
    exact s.stepBy_of_no_fetch exec hfetch
  | some op =>
    rw [step_of_fetch hfetch, stepFault_of_fetch hfetch]
    cases decode op with
    | error e => rfl
    | ok i => exact exec_raisesExactly i s.advance

/-! ## `initialize` (60_exceptions.md R175) -/

theorem initialise_eq_error_iff (rom : List Byte) : Arch.initialise rom = .error .romTooLarge ↔ rom.length > 3584 := by
  by_cases hlen : rom.length ≤ 3584
  · rw [initialise_eq_ok hlen]
    exact iff_of_false nofun (Nat.not_lt.2 hlen)
  · exact iff_of_true (if_pos (Nat.lt_of_not_le hlen)) (Nat.lt_of_not_le hlen)

/-- A failed `initialize` leaves no machine (70_reset_and_hazards.md R201). -/
theorem serveInitialise_of_error {rom : List Byte} {e : InitError} (h : Arch.initialise rom = .error e) :
    serveInitialise rom = (.initFailed e, none) := by
  rw [serveInitialise, h]

/-! ## `decrementTimers` (60_exceptions.md R185) -/

/-- The count-down is the subtraction that stops at 0 (92_eei_decisions.md D10). -/
theorem toNat_countDown (t : Byte) : (countDown t).toNat = t.toNat - 1 := by
  unfold countDown
  split
  case isTrue hpos => exact BitVec.toNat_sub_of_le (BitVec.le_def.2 hpos)
  case isFalse hzero => omega

theorem State.frameList_decrementTimers (s : State) : FrameList [.dt, .st] s s.decrementTimers :=
  ((s.frame_setDt (countDown s.dt)).trans (State.frame_setSt _ (countDown s.st))).frameList fun e he => by simpa using he

/-! ## `setKeys` (60_exceptions.md R188) -/

theorem State.frame_setKeys (s : State) (k : Vector Bool 16) : Frame (fun e => ∃ j, e = .key j) s (s.setKeys k) := by
  intro e he
  cases e with
  | key j => exact absurd ⟨j, rfl⟩ he
  | _ => rfl

theorem execOn_keys {rnd : Byte} {i : Instr} {s t : State} (h : execOn rnd i s = .next t) : t.keys = s.keys := by
  cases i with
  | rnd => cases h; rfl
  | _ => rw [execOn_of_ne_rnd rnd _ _ (by simp)] at h; exact exec_keys h

/-- The key flags hold through a step, faulting or not, when every handler keeps them (92_eei_decisions.md D19). -/
theorem State.commit_stepBy_keys {run : Instr → State → Result} (hrun : ∀ i s t, run i s = .next t → t.keys = s.keys)
    (s : State) : (s.commit (s.stepBy run)).2.keys = s.keys := by
  cases hstep : s.stepBy run with
  | next t =>
    obtain ⟨op, i, -, -, hexec⟩ := State.stepBy_eq_next hstep
    exact (hrun i s.advance t hexec).trans s.advance_keys
  | fault | refused => rfl

/-! ## `framebuffer` (60_exceptions.md R189) -/

theorem Arch.framebuffer_eq_toList_flatten (m : Arch) : m.framebuffer = m.fb.flatten.toList := by
  simp only [framebuffer, List.flatMap, Vector.flatten, Vector.toList, Array.toList_flatten, Array.toList_map, List.map_map]
  rfl

theorem Arch.framebuffer_length (m : Arch) : m.framebuffer.length = 2048 := by
  rw [m.framebuffer_eq_toList_flatten, Vector.length_toList]

/-- The view is row-major from the top left (92_eei_decisions.md D14). -/
theorem Arch.getElem?_framebuffer (m : Arch) (px : Fin 64) (py : Fin 32) :
    m.framebuffer[py.val * 64 + px.val]? = some (m.fb.pixel px.val py.val) := by
  have hlt : py.val * 64 + px.val < 32 * 64 := by omega
  have hrow : (py.val * 64 + px.val) / 64 = py.val % 32 := by omega
  have hcol : (py.val * 64 + px.val) % 64 = px.val % 64 := by omega
  rw [m.framebuffer_eq_toList_flatten, Vector.getElem?_toList, Vector.getElem?_eq_getElem hlt, Vector.getElem_flatten]
  simp only [hrow, hcol, Framebuffer.pixel]

end Sys2Proof.Machine

namespace Sys2Proof

open Sys2Proof.Machine

/-- Settles O37: the handlers that can fault are those of the table, each under one guard, and every other completes. -/
theorem handlerFaultsExactly : Obligations.HandlerFaultsExactly := by
  unfold Obligations.HandlerFaultsExactly
  intro i s f
  obtain ⟨hfault, -⟩ := (exec_raisesExactly i s).outcome_iff
  exact hfault f

/-- Settles O38: the step has the outcome of the first stage that raises a fault. -/
theorem stepFaultsInOrder : Obligations.StepFaultsInOrder := by
  unfold Obligations.StepFaultsInOrder
  exact fun s => (step_raisesExactly s).outcome_iff

/-- Settles O54: `initialize` has one guard, and is the same operation on every block. -/
theorem romTooLargeConstructsNoMachine : Obligations.RomTooLargeConstructsNoMachine := by
  unfold Obligations.RomTooLargeConstructsNoMachine
  intro rom
  refine ⟨initialise_eq_error_iff rom, fun hlen b => ?_⟩
  rw [serve_initialise, serveInitialise_of_error ((initialise_eq_error_iff rom).2 hlen)]

/-- Settles O57: both timers are counted down by the subtraction that stops at 0. -/
theorem decrementTimersStopsAtZero : Obligations.DecrementTimersStopsAtZero := by
  unfold Obligations.DecrementTimersStopsAtZero
  exact fun s => ⟨toNat_countDown s.dt, toNat_countDown s.st, s.frameList_decrementTimers, rfl⟩

/-- Settles O58: the flags are replaced as a whole, and neither form of the step has a handler that writes them. -/
theorem setKeysSetsEveryFlag : Obligations.SetKeysSetsEveryFlag := by
  unfold Obligations.SetKeysSetsEveryFlag
  exact fun s k => ⟨fun _ => rfl, s.frame_setKeys k, rfl, State.commit_stepBy_keys (fun _ _ _ => exec_keys) _,
    fun rnd => State.commit_stepBy_keys (fun _ _ _ => execOn_keys) { s.toArch.setKeys k with draws := 0 }⟩

/-- Settles O59: the port answers ST, and the tone tells whether it is 0. -/
theorem soundOutputIsSt : Obligations.SoundOutputIsSt := by
  unfold Obligations.SoundOutputIsSt
  exact fun m => ⟨rfl, m.toneOn_iff.trans BitVec.toNat_ne_iff_ne.symm⟩

/-- Settles O60: the view is the 32 rows of 64 pixels one after the other. -/
theorem framebufferViewIsRowMajor : Obligations.FramebufferViewIsRowMajor := by
  unfold Obligations.FramebufferViewIsRowMajor
  exact fun m => ⟨m.framebuffer_length, m.getElem?_framebuffer, rfl⟩

end Sys2Proof
end

section
/-! SUPPORT. The empty image adds nothing to the state after reset (70_reset_and_hazards.md R200, R203). -/

namespace Sys2Proof.Machine

theorem State.initialised_nil : State.initialised [] = State.reset := rfl

end Sys2Proof.Machine

namespace Sys2Proof

open Sys2Proof.Machine

/-- Settles O55: the empty image fits, and the memory that holds it is the memory after reset. -/
theorem resetIsEmptyInitialisation : Obligations.ResetIsEmptyInitialisation := by
  unfold Obligations.ResetIsEmptyInitialisation
  have hfits : ([] : List Byte).length ≤ 3584 := Nat.zero_le 3584
  rw [initialise_eq_ok hfits, State.initialised_nil]

end Sys2Proof
end
